-- ==== Sys2Proof/Word.lean ====
section
/-! DEFINITION. The word types of the engine: bits, nibbles, bytes and 32-bit words (spec 00_scope.md R9, R10, R11). -/

namespace Sys2Proof

/-- One bit: a control bit, a MONO bit, LAYOUT, LAST_OK (R32, R101). -/
abbrev Bit := BitVec 1

/-- One 4-bit colour channel or error code (R32, R47). -/
abbrev Nibble := BitVec 4

/-- One byte of FBMEM, SRCMEM, a frame or a transaction (R11). -/
abbrev Byte := BitVec 8

/-- One 32-bit register or command word (R9, R100). -/
abbrev Word := BitVec 32

end Sys2Proof
end

