-- ==== Sys2Proof/Syntax.lean ====
section
/-! DEFINITION. The command set (30_encoding.md R104): one constructor of `Instr` per row of the opcode table; and the
assembler statements of R108 and R109, with the register names of 10_state.md R32 they use. -/

namespace Sys2Proof

/-- The nine commands of NBF-CE command set, revision 1 (R104). The operands are the fields a row leaves open:
the control bit `w[8]` and the data byte `w[7:0]` (R103); every other operand is a register. -/
inductive Instr where
  /-- PUSH cb, data (R160). -/
  | push (cb : Bit) (data : Byte)
  /-- FLUSH cb, noop (R165). -/
  | flush (cb : Bit) (noop : Byte)
  /-- COMPX: composite, Exclusive (R140). -/
  | compx
  /-- COMPW: composite, Overwrite (R141). -/
  | compw
  /-- COMPL: composite, Overlay (R142). -/
  | compl
  /-- REVBITS byte (R180). -/
  | revbits (byte : Byte)
  /-- QUANT4 byte (R181). -/
  | quant4 (byte : Byte)
  /-- SENDR: serialise raw (R190). -/
  | sendr
  /-- SENDF cb: serialise through the framer (R191). -/
  | sendf (cb : Bit)
deriving DecidableEq, Repr

/-- The host registers of R32, by name. -/
inductive RegName where
  | cmd | status | result | framer
  | fbLayout | fbW | fbH
  | srcBase | srcW | srcH | srcDepth
  | xoff | yoff | fg | bg
deriving DecidableEq, Repr

/-- Assembler statements (R108) and pseudo-instructions (R109), with their operands as the numbers written in the
text: `WellFormed.lean` says which are in range, since "An operand out of its range is an assembly error". -/
inductive Statement where
  | push (cb data : Nat)
  | flush (cb noop : Nat)
  | compx
  | compw
  | compl
  | revbits (byte : Nat)
  | quant4 (byte : Nat)
  | sendr
  | sendf (cb : Nat)
  /-- `WR reg, value`. -/
  | wr (reg : RegName) (value : Nat)
  /-- `RD reg`. -/
  | rd (reg : RegName)
  /-- `SB.FB addr, byte`. -/
  | sbFb (addr byte : Nat)
  /-- `LB.FB addr`. -/
  | lbFb (addr : Nat)
  /-- `SB.SRC addr, byte`. -/
  | sbSrc (addr byte : Nat)
  /-- `LB.SRC addr`. -/
  | lbSrc (addr : Nat)
  /-- `SETFB layout, w, h`. -/
  | setfb (layout w h : Nat)
  /-- `SETSRC base, w, h, depth`. -/
  | setsrc (base w h depth : Nat)
  /-- `SETOFF x, y`. -/
  | setoff (x y : Int)
  /-- `SETFG mono, r, g, b`. -/
  | setfg (mono r g b : Nat)
  /-- `SETBG mono, r, g, b`. -/
  | setbg (mono r g b : Nat)
  /-- `PUSHSEQ cb, d1, ..., dn`. -/
  | pushseq (cb : Nat) (ds : List Nat)
  /-- `FILLBG`. -/
  | fillbg
deriving DecidableEq, Repr

end Sys2Proof
end

