-- ==== Sys2Proof/WellFormed.lean ====
section
/-! DEFINITION. Which commands and assembler statements are well formed (30_encoding.md R103, R108, R109). -/

namespace Sys2Proof

/-- Every command term is well formed: its operands are a 1-bit control bit and an 8-bit data byte by type, and a
field a format does not use is no part of the term (R102, R103), so there is nothing left to check. -/
def Instr.wellFormed : Instr → Bool
  | .push _ _ => true
  | .flush _ _ => true
  | .compx => true
  | .compw => true
  | .compl => true
  | .revbits _ => true
  | .quant4 _ => true
  | .sendr => true
  | .sendf _ => true

/-- An unsigned operand fits a field of `bits` bits. -/
def fitsField (bits n : Nat) : Bool := decide (n < 2 ^ bits)

/-- A signed operand lies in −32768..32767, the range R109 gives SETOFF. -/
def fitsOffset (x : Int) : Bool := decide (-32768 ≤ x ∧ x ≤ 32767)

/-- The operands of a colour pseudo-instruction fit the fields MONO, R, G, B of R47. -/
def fitsColour (mono r g b : Nat) : Bool :=
  fitsField 1 mono && fitsField 4 r && fitsField 4 g && fitsField 4 b

/-- Every operand of the statement is in its range (R108: "An operand out of its range is an assembly error, never a
silent truncation"). R108 gives the ranges of the command operands, of a 32-bit register value and of a byte; R109
gives SETOFF's. For the other pseudo-instructions the range is that of the register field the operand fills, a memory
address has none, since the sizes are parameters, and PUSHSEQ may have no data byte, where R109 writes
`d1, ..., dn` and does not say whether `n` may be 0: DESIGN CHOICE, log entry 12. -/
def Statement.wellFormed : Statement → Bool
  | .push cb data => fitsField 1 cb && fitsField 8 data
  | .flush cb noop => fitsField 1 cb && fitsField 8 noop
  | .compx => true
  | .compw => true
  | .compl => true
  | .revbits byte => fitsField 8 byte
  | .quant4 byte => fitsField 8 byte
  | .sendr => true
  | .sendf cb => fitsField 1 cb
  | .wr _ value => fitsField 32 value
  | .rd _ => true
  | .sbFb _ byte => fitsField 8 byte
  | .lbFb _ => true
  | .sbSrc _ byte => fitsField 8 byte
  | .lbSrc _ => true
  | .setfb layout w h => fitsField 1 layout && fitsField 16 w && fitsField 16 h
  | .setsrc base w h depth => fitsField 32 base && fitsField 16 w && fitsField 16 h && fitsField 8 depth
  | .setoff x y => fitsOffset x && fitsOffset y
  | .setfg mono r g b => fitsColour mono r g b
  | .setbg mono r g b => fitsColour mono r g b
  | .pushseq cb ds => fitsField 1 cb && ds.all (fitsField 8)
  | .fillbg => true

end Sys2Proof
end

