-- ==== Sys2Proof/Decode.lean ====
section
/-! DEFINITION. The command-word decoder and encoder (30_encoding.md R100 to R106, R110), and the match and mask table
of R104. -/

namespace Sys2Proof

/-- Why a command word is illegal (R105). Every one of them ends the command with ILLEGAL_CMD; the reasons are not
distinguished by the machine. -/
inductive Illegal where
  /-- RSVH, bits [27:16], is not 0. -/
  | reservedHigh
  /-- RSVL, bits [11:9], is not 0. -/
  | reservedLow
  /-- OPC is 0x0 or 0x6 to 0xF. -/
  | opcode
  /-- FUNC names no function of the family. -/
  | function
  /-- CB is 1 where R102 requires 0. -/
  | controlBit
  /-- DATA is not 0 where R102 requires 0. -/
  | data
deriving DecidableEq, Repr

/-- What a 32-bit word is: a command, or illegal for a reason (R110). -/
inductive Decoded where
  | command (i : Instr)
  | illegal (why : Illegal)
deriving DecidableEq, Repr

/-- OPC, bits [31:28] (R101). -/
def opcField (w : Word) : BitVec 4 := w.extractLsb' 28 4
/-- RSVH, bits [27:16] (R101). -/
def rsvhField (w : Word) : BitVec 12 := w.extractLsb' 16 12
/-- FUNC, bits [15:12] (R101). -/
def funcField (w : Word) : BitVec 4 := w.extractLsb' 12 4
/-- RSVL, bits [11:9] (R101). -/
def rsvlField (w : Word) : BitVec 3 := w.extractLsb' 9 3
/-- CB, bit [8] (R101). -/
def cbField (w : Word) : Bit := w.extractLsb' 8 1
/-- DATA, bits [7:0] (R101). -/
def dataField (w : Word) : Byte := w.extractLsb' 0 8

/-- The utility row of `decode` (OPC 0x4), after CB was found 0. -/
def decodeUtility (func : BitVec 4) (data : Byte) : Decoded :=
  if func = 0 then .command (.revbits data)
  else if func = 1 then .command (.quant4 data)
  else .illegal .function

/-- The compositor row of `decode` (OPC 0x3), after CB and DATA were found 0. -/
def decodeCompositor (func : BitVec 4) : Decoded :=
  if func = 0 then .command .compx
  else if func = 1 then .command .compw
  else if func = 2 then .command .compl
  else .illegal .function

/-- The serialiser row of `decode` (OPC 0x5), after DATA was found 0. -/
def decodeSerialiser (func : BitVec 4) (cb : Bit) : Decoded :=
  if func = 0 then (if cb = 0 then .command .sendr else .illegal .controlBit)
  else if func = 1 then .command (.sendf cb)
  else .illegal .function

/-- The decoder of R110, total on every 32-bit word. -/
def decode (w : Word) : Decoded :=
  let func := funcField w
  let cb := cbField w
  let data := dataField w
  if rsvhField w ≠ 0 then .illegal .reservedHigh
  else if rsvlField w ≠ 0 then .illegal .reservedLow
  else if opcField w = 1 then
    (if func = 0 then .command (.push cb data) else .illegal .function)
  else if opcField w = 2 then
    (if func = 0 then .command (.flush cb data) else .illegal .function)
  else if opcField w = 3 then
    (if cb ≠ 0 then .illegal .controlBit else if data ≠ 0 then .illegal .data else decodeCompositor func)
  else if opcField w = 4 then
    (if cb ≠ 0 then .illegal .controlBit else decodeUtility func data)
  else if opcField w = 5 then
    (if data ≠ 0 then .illegal .data else decodeSerialiser func cb)
  else .illegal .opcode

/-- The word `oooo rrrr rrrr rrrr ffff rrrc dddd dddd` with its reserved fields 0 (R101). -/
def packWord (opc func : BitVec 4) (cb : Bit) (data : Byte) : Word :=
  opc ++ (0 : BitVec 12) ++ func ++ (0 : BitVec 3) ++ cb ++ data

/-- The command word of a command (R104). -/
def encode : Instr → Word
  | .push cb data => packWord 1 0 cb data
  | .flush cb noop => packWord 2 0 cb noop
  | .compx => packWord 3 0 0 0
  | .compw => packWord 3 1 0 0
  | .compl => packWord 3 2 0 0
  | .revbits byte => packWord 4 0 0 byte
  | .quant4 byte => packWord 4 1 0 byte
  | .sendr => packWord 5 0 0 0
  | .sendf cb => packWord 5 1 cb 0

/-- A row of R104's match and mask table: `w` is the command when `w &&& mask = value`. -/
structure OpcodeRow where
  mnemonic : String
  value : Word
  mask : Word
deriving DecidableEq, Repr

/-- Whether a word matches a row of the table. -/
def OpcodeRow.matchesWord (r : OpcodeRow) (w : Word) : Bool := w &&& r.mask == r.value

/-- The row of a command in R104's match and mask table. -/
def Instr.row : Instr → OpcodeRow
  | .push _ _ => ⟨"PUSH", 0x10000000, 0xFFFFFE00⟩
  | .flush _ _ => ⟨"FLUSH", 0x20000000, 0xFFFFFE00⟩
  | .compx => ⟨"COMPX", 0x30000000, 0xFFFFFFFF⟩
  | .compw => ⟨"COMPW", 0x30001000, 0xFFFFFFFF⟩
  | .compl => ⟨"COMPL", 0x30002000, 0xFFFFFFFF⟩
  | .revbits _ => ⟨"REVBITS", 0x40000000, 0xFFFFFF00⟩
  | .quant4 _ => ⟨"QUANT4", 0x40001000, 0xFFFFFF00⟩
  | .sendr => ⟨"SENDR", 0x50000000, 0xFFFFFFFF⟩
  | .sendf _ => ⟨"SENDF", 0x50001000, 0xFFFFFEFF⟩

/-- R104's match and mask table. -/
def opcodeTable : List OpcodeRow :=
  [Instr.row (.push 0 0), Instr.row (.flush 0 0), Instr.row .compx, Instr.row .compw, Instr.row .compl,
   Instr.row (.revbits 0), Instr.row (.quant4 0), Instr.row .sendr, Instr.row (.sendf 0)]

/-- The command the decoder reads from the low `nbits` bits of `w`, every bit above them 0; none where the decoder
finds the word illegal, or where the bits do not fit the one 32-bit command word (R100, R107). Log entry 15. -/
def decodeTableWord (nbits w : Nat) : Option Instr :=
  let v := w % 2 ^ nbits
  if v < 2 ^ 32 then
    match decode (BitVec.ofNat 32 v) with
    | .command i => some i
    | .illegal _ => none
  else none

end Sys2Proof
end

