-- ==== Sys2Proof/Machine/Bits.lean ====
section
/-! DEFINITION. The bit and arithmetic primitives of the pseudocode (00_scope.md R10, R11) and the byte functions of
42_utility.md R180, R181. -/

namespace Sys2Proof.Machine

/-- `bit(v, k)`, the bit of weight 2^k (R10, R11). -/
def bitAt (v : Byte) (k : Nat) : Bit := (v >>> k).setWidth 1

/-- `setbit(v, k, b)`, `v` with bit `k` replaced by `b` (R11). -/
def setBit (v : Byte) (k : Nat) (b : Bit) : Byte := (v &&& ~~~((1 : Byte) <<< k)) ||| (b.setWidth 8 <<< k)

/-- `sext_16(v)` (R11). -/
def sext16 (v : BitVec 16) : Int := if v.toNat < 2 ^ 15 then (v.toNat : Int) else (v.toNat : Int) - 2 ^ 16

/-- `ceil_div(a, b)` (R11). -/
def ceilDiv (a b : Nat) : Nat := (a + b - 1) / b

/-- The `d >> (c + 1)`, `prev << (8 - c)`, `setbit` of the packing step: the byte a push at cursor `c` puts at frame
position `c` (41_framer.md R160). -/
def framerByte (c : Nat) (prev d : Byte) (cb : Bit) : Byte :=
  let out := d >>> (c + 1)
  let out := if 0 < c then out ||| (prev <<< (8 - c)) else out
  setBit out (7 - c) cb

/-- The three swaps of REVBITS: nibbles, 2-bit pairs, 1-bit pairs (R180). -/
def reverseBits (b : Byte) : Byte :=
  let t := ((b &&& 0xF0) >>> 4) ||| ((b &&& 0x0F) <<< 4)
  let t := ((t &&& 0xCC) >>> 2) ||| ((t &&& 0x33) <<< 2)
  ((t &&& 0xAA) >>> 1) ||| ((t &&& 0x55) <<< 1)

/-- `quant4(b) = b >> 4`, a value 0..15 (R181). -/
def quant4 (b : Byte) : Byte := b >>> 4

/-- `for i in 0 .. n-1`, in rising order, carrying a value along (R12, R130). -/
def forUpto {α : Type} (n : Nat) (body : Nat → α → α) (a : α) : α :=
  match n with
  | 0 => a
  | k + 1 => body k (forUpto k body a)

end Sys2Proof.Machine
end

