-- ==== Sys2Proof/Config.lean ====
section
/-! DEFINITION. What the spec leaves to the implementation or the environment, as constants without a body
(00_scope.md R9; 93_implementation_defined.md): no proof can learn their values. -/

namespace Sys2Proof

/-- The transport's answer to one transaction: success, failure, or no answer ever (R9, R206, R236). -/
inductive TransportAnswer where
  /-- The transport answers `true`. -/
  | success
  /-- The transport answers `false`. -/
  | failure
  /-- The transport never answers. -/
  | silence
deriving DecidableEq, Repr, Inhabited

/-- FB_MEM_BYTES less one: R9 makes FB_MEM_BYTES a natural number of at least 1. Log entry 2. -/
opaque Config.fbMemBytesLessOne : Nat

/-- The parameter FB_MEM_BYTES of the machine that `State.reset` describes (R9). Log entry 2. -/
def Config.fbMemBytes : Nat := Config.fbMemBytesLessOne + 1

/-- SRC_MEM_BYTES with its bound: R9 makes it a natural number of at most 2^32. Log entry 2. -/
opaque Config.srcMemBytesBounded : Fin (2 ^ 32 + 1)

/-- The parameter SRC_MEM_BYTES of the machine that `State.reset` describes (R9). Log entry 2. -/
def Config.srcMemBytes : Nat := Config.srcMemBytesBounded.val

/-- FREE VALUE. The answer to the n-th transaction handed to the transport, where State lists none for it
(R206: "The answer is chosen by the environment"). Log entry 3. -/
opaque Config.transportAnswer : Nat → TransportAnswer

/-- FREE VALUE. What address `a` of a memory holds, under draw number `n` of power-on contents, before anything
has written it (R59, R237: "an unconstrained draw"). Log entry 5. -/
opaque Config.powerOnByte : (n : Nat) → (a : Nat) → Byte

end Sys2Proof
end

