-- ==== Sys2Proof/Machine/State.lean ====
section
/-! DEFINITION. The state of the engine as plain data (10_state.md, 20_memory.md, 70_reset_and_hazards.md), the reasons
a step can stop, and the state after reset (R59). -/

namespace Sys2Proof.Machine

/-- Why a step stops with a fault. -/
inductive Fault where
  /-- The host made an access that R81 refuses (a REG access not 32 bits wide, misaligned or outside REG; a memory
  access of several bytes or at an address past the memory), or any access while reset is asserted (R230). Raised
  by the host-access layer (`Machine/Bus.lean`). SAFE: R216 gives such an access no successful step, and the engine's
  state is unchanged. -/
  | busError
deriving DecidableEq, Repr

/-- Why a step is refused. -/
inductive Refusal where
  /-- An instruction that has no meaning yet, by its mnemonic. No arm of `exec` answers so: every command has its
  meaning. SAFE. -/
  | notModelled (mnemonic : String)
deriving DecidableEq, Repr

/-- A colour register, FG or BG: its four fields; its other bits read 0 and are not stored (R32, R47, R48). -/
structure Colour where
  /-- Bit 16: the bit used on the page-packed layout. -/
  mono : Bit
  /-- Bits [11:8]. -/
  r : Nibble
  /-- Bits [7:4]. -/
  g : Nibble
  /-- Bits [3:0]. -/
  b : Nibble
deriving DecidableEq, Repr

/-- The stored fields of the host register block (R32). CMD stores nothing (R34) and FRAMER is a view of the framer
state (R37), so neither has a field here. -/
structure Regs where
  /-- STATUS bit 0 (R35). -/
  lastOk : Bit
  /-- STATUS bits [7:4] (R35, R201). -/
  lastErr : Nibble
  /-- RESULT bits [7:0] (R36). -/
  result : Byte
  /-- FB_LAYOUT bit 0 (R38). -/
  fbLayout : Bit
  /-- FB_W bits [15:0] (R39). -/
  fbW : BitVec 16
  /-- FB_H bits [15:0] (R40). -/
  fbH : BitVec 16
  /-- SRC_BASE (R41). -/
  srcBase : Word
  /-- SRC_W bits [15:0] (R42). -/
  srcW : BitVec 16
  /-- SRC_H bits [15:0] (R43). -/
  srcH : BitVec 16
  /-- SRC_DEPTH bits [7:0] (R44). -/
  srcDepth : Byte
  /-- XOFF bits [15:0], read as two's complement (R45). -/
  xoff : BitVec 16
  /-- YOFF bits [15:0], read as two's complement (R46). -/
  yoff : BitVec 16
  /-- FG (R47). -/
  fg : Colour
  /-- BG (R48). -/
  bg : Colour
deriving DecidableEq, Repr

/-- The framer state (R49 to R51). -/
structure Framer where
  /-- `fr.cursor`, 0..7 (R49). -/
  cursor : BitVec 3
  /-- `fr.prev` (R50). -/
  prev : Byte
  /-- `fr.frame[0..8]` (R51). -/
  frame : Vector Byte 9
deriving DecidableEq, Repr

/-- A memory of bytes, FBMEM or SRCMEM (R72, R73). `cells` lists, by rising address, exactly the bytes written since
the contents were drawn; a byte not listed holds `Config.powerOnByte draw` of its address (log entry 5). -/
structure Memory where
  /-- FB_MEM_BYTES or SRC_MEM_BYTES (R9): the addresses are 0 to `size - 1`. -/
  size : Nat
  /-- Which draw of power-on contents this is. -/
  draw : Nat
  /-- The bytes written since that draw. -/
  cells : List Host.Cell
deriving DecidableEq, Repr

/-- One entry of the transport log: the bytes handed over and the answer they got (R56, R206). -/
structure Transaction where
  bytes : List Byte
  ok : Bool
deriving DecidableEq, Repr

/-- Whether a command is in progress between two steps (R83, R215, R236). -/
inductive Phase where
  /-- No command is running. -/
  | idle
  /-- A command has handed these bytes to the transport, which has not answered and never will (R236). -/
  | waiting (bytes : List Byte)
deriving DecidableEq, Repr

/-- The address spaces a host access names (R70). -/
inductive Space where
  | reg
  | fbMem
  | srcMem
deriving DecidableEq, Repr

/-- What a host access does. A write carries a value of up to 32 bits; a REG write takes all 32, a memory write the
low 8. Log entry 16. -/
inductive Direction where
  | read
  | write (value : Word)
deriving DecidableEq, Repr

/-- One host access: the space, the byte address or offset in it, its width in bytes, and what it does (R81). -/
structure Access where
  space : Space
  addr : Nat
  bytes : Nat
  dir : Direction
deriving DecidableEq, Repr

/-- What happens at the engine's boundary, in order. Log entries 1 and 7. -/
inductive HostEvent where
  /-- The host makes an access. -/
  | access (a : Access)
  /-- The host writes `w` to CMD, and the reset input is asserted before that command ends (R231). -/
  | commandCutByReset (w : Word)
  /-- The reset input is asserted (R230). -/
  | resetAssert
  /-- The reset input is released (R230). -/
  | resetRelease
deriving DecidableEq, Repr

/-- The whole state. The first six fields are the spec's (10_state.md, opening paragraph), `phase` and `inReset` are
the spec's conditions of R83, R236 and R230; the others are the model's own (INVENTORY.md, State). -/
structure State where
  /-- The host register block (R32). -/
  reg : Regs
  /-- The framer state (R49 to R52). -/
  fr : Framer
  /-- The framebuffer RAM (R54, R72). -/
  fbMem : Memory
  /-- The source memory (R55, R73). -/
  srcMem : Memory
  /-- The transport log, oldest first (R56). -/
  log : List Transaction
  /-- The command in progress, if one waits for the transport (R83, R236). -/
  phase : Phase
  /-- The reset input is asserted (R230). -/
  inReset : Bool
  /-- MODEL'S OWN: what the host and the reset line will do next, in order (log entry 1). -/
  host : List HostEvent
  /-- MODEL'S OWN: the value the last host access returned, if it was a read (log entry 9). -/
  readData : Option Word
  /-- MODEL'S OWN: the transport's answers already settled, for the next transactions in order (log entry 3). -/
  answers : List TransportAnswer
  /-- MODEL'S OWN: how many transactions were handed over; the free value's argument (log entry 3). -/
  asked : Nat
  /-- MODEL'S OWN: the first draw number no memory has used (log entry 5). -/
  nextDraw : Nat
deriving DecidableEq, Repr

/-- The registers after reset (R59, R32): all 0 but LAST_OK = 1 and FG = 0x00010FFF. -/
def Regs.reset : Regs where
  lastOk := 1
  lastErr := 0
  result := 0
  fbLayout := 0
  fbW := 0
  fbH := 0
  srcBase := 0
  srcW := 0
  srcH := 0
  srcDepth := 0
  xoff := 0
  yoff := 0
  fg := ⟨1, 0xF, 0xF, 0xF⟩
  bg := ⟨0, 0, 0, 0⟩

/-- The framer after reset: cursor 0, prev 0 (R59). The frame bytes are unspecified there; the model takes 0,
DESIGN CHOICE, log entry 6. -/
def Framer.reset : Framer := ⟨0, 0, Vector.replicate 9 0⟩

/-- The machine right after reset (R59, R230), at power-on: no memory byte written, nothing asked of the transport,
and nothing yet done by the host. -/
def State.reset : State where
  reg := Regs.reset
  fr := Framer.reset
  fbMem := ⟨Config.fbMemBytes, 0, []⟩
  srcMem := ⟨Config.srcMemBytes, 1, []⟩
  log := []
  phase := .idle
  inReset := false
  host := []
  readData := none
  answers := []
  asked := 0
  nextDraw := 2

end Sys2Proof.Machine
end

