-- ==== Sys2Proof/Machine/Memory.lean ====
section
/-! DEFINITION. Reading and writing one byte of FBMEM or SRCMEM (00_scope.md R12; 20_memory.md R72, R73, R86), and the
canonical form of a memory. -/

namespace Sys2Proof.Machine

/-- The byte listed at an address, if one is. -/
def lookupCell (cells : List Host.Cell) (a : Nat) : Option Byte :=
  match cells with
  | [] => none
  | (k, v) :: rest => if a = k then some v else lookupCell rest a

/-- The list with address `a` holding `v`, its addresses still rising. -/
def insertCell (cells : List Host.Cell) (a : Nat) (v : Byte) : List Host.Cell :=
  match cells with
  | [] => [(a, v)]
  | (k, w) :: rest =>
    if a < k then (a, v) :: (k, w) :: rest
    else if a = k then (a, v) :: rest
    else (k, w) :: insertCell rest a v

/-- What an address that nothing has written since the contents were drawn reads as: a free value, one per draw and
address, so that repeated reads agree ("one draw per byte, fixed until written", R59, R237). Log entry 5. -/
def Memory.unwritten (m : Memory) (a : Nat) : Byte := Config.powerOnByte m.draw a

/-- `FbRead(a)`, `SrcRead(a)`: the byte at an address (R12, R86). -/
def Memory.read (m : Memory) (a : Nat) : Byte := (lookupCell m.cells a).getD (m.unwritten a)

/-- `FbWrite(a, v)`, and the host's byte write: the address then holds `v` (R12, R76). -/
def Memory.write (m : Memory) (a : Nat) (v : Byte) : Memory := { m with cells := insertCell m.cells a v }

/-- The memory with new, undetermined contents: draw number `n` (R59, R237). -/
def Memory.redraw (m : Memory) (n : Nat) : Memory := { m with draw := n, cells := [] }

/-- The canonical form: the listed addresses rise strictly and exist. An unlisted byte has no listed value, so no
entry repeats what an unlisted address is known to hold (log entry 5). -/
def Memory.wf (m : Memory) : Bool :=
  decide (m.cells.Pairwise fun x y => x.1 < y.1) && m.cells.all fun c => decide (c.1 < m.size)

end Sys2Proof.Machine
end

