-- ==== Sys2Proof/Machine/Operands.lean ====
section
/-! DEFINITION. The register operands of the commands and what is computed from them: sizes, strides, addresses, source
coordinates and colours (20_memory.md R74 to R79; 30_encoding.md R103, R111, R115; 40_composite.md R131 to R135). All
sizes and addresses are exact natural numbers (00_scope.md R11). -/

namespace Sys2Proof.Machine

/-- FB_W as a number of pixels (R39). -/
def State.fbWidth (s : State) : Nat := s.reg.fbW.toNat
/-- FB_H as a number of pixels (R40). -/
def State.fbHeight (s : State) : Nat := s.reg.fbH.toNat
/-- FB_LAYOUT = 1, the nibble layout; otherwise the page layout (R38). -/
def State.nibbleLayout (s : State) : Bool := decide (s.reg.fbLayout = 1)
/-- SRC_W as a number of pixels (R42). -/
def State.srcWidth (s : State) : Nat := s.reg.srcW.toNat
/-- SRC_H as a number of pixels (R43). -/
def State.srcHeight (s : State) : Nat := s.reg.srcH.toNat
/-- SRC_BASE as a byte address of SRCMEM (R41). -/
def State.srcBase (s : State) : Nat := s.reg.srcBase.toNat
/-- SRC_DEPTH = 1 (R44). -/
def State.depthOne (s : State) : Bool := decide (s.reg.srcDepth = 1)

/-- `fbSize`, the bytes the framebuffer occupies (R79). -/
def State.fbSize (s : State) : Nat :=
  if s.nibbleLayout then s.fbWidth * s.fbHeight * 3 else s.fbWidth * s.fbHeight / 8

/-- `geomOK()`, the destination geometry check (R131). -/
def State.geomOK (s : State) : Bool :=
  decide (1 ≤ s.fbWidth) && decide (1 ≤ s.fbHeight)
    && (s.nibbleLayout || decide (s.fbHeight % 8 = 0))
    && decide (s.fbSize ≤ s.fbMem.size)

/-- `depthOK()`, the source depth check (R132). -/
def State.depthOK (s : State) : Bool :=
  (decide (s.reg.srcDepth = 1) || decide (s.reg.srcDepth = 32))
    && !(!s.nibbleLayout && decide (s.reg.srcDepth = 32))

/-- `stride`, the bytes of one source row (R74, R75, R130). -/
def State.stride (s : State) : Nat := if s.depthOne then ceilDiv s.srcWidth 8 else s.srcWidth * 4

/-- The source range check: the footprint lies in SRCMEM (R133). -/
def State.srcInRange (s : State) : Bool := decide (s.srcBase + s.stride * s.srcHeight ≤ s.srcMem.size)

/-- The FBMEM address of pixel `(x, y)` on the page layout (R77). -/
def State.pageAddr (s : State) (x y : Nat) : Nat := x + (y / 8) * s.fbWidth

/-- The FBMEM address of the first channel of pixel `(x, y)` on the nibble layout; channel `ch` is at that address
plus `ch` (R78). -/
def State.nibbleAddr (s : State) (x y : Nat) : Nat := (x + y * s.fbWidth) * 3

/-- The SRCMEM address of the byte that holds depth-1 source pixel `(sx, sy)` (R74). -/
def State.srcBitAddr (s : State) (sx sy : Nat) : Nat := s.srcBase + sy * s.stride + sx / 8

/-- The SRCMEM address of the red byte of depth-32 source pixel `(sx, sy)` (R75). -/
def State.srcPixelAddr (s : State) (sx sy : Nat) : Nat := s.srcBase + sy * s.stride + sx * 4

/-- Three 4-bit channel values. -/
structure Rgb where
  r : Nibble
  g : Nibble
  b : Nibble
deriving DecidableEq, Repr

/-- Channel `ch` of a colour: 0 red, 1 green, 2 blue (R78). -/
def Rgb.channel (c : Rgb) (ch : Nat) : Nibble := if ch = 0 then c.r else if ch = 1 then c.g else c.b

/-- The channels of a colour register (R47, R48). -/
def Colour.rgb (c : Colour) : Rgb := ⟨c.r, c.g, c.b⟩

/-- The source coordinate of destination pixel `(x, y)`, if it is inside the source's bounds (R134). -/
def State.sourceCoord (s : State) (x y : Nat) : Option (Nat × Nat) :=
  let sx : Int := (x : Int) - sext16 s.reg.xoff
  let sy : Int := (y : Int) - sext16 s.reg.yoff
  if 0 ≤ sx ∧ sx < s.srcWidth ∧ 0 ≤ sy ∧ sy < s.srcHeight then some (sx.toNat, sy.toNat) else none

/-- Whether the source is set at one of its own pixels: the packed bit for depth 1, always for depth 32 (R134). -/
def State.sourceBit (s : State) (sx sy : Nat) : Bool :=
  if s.depthOne then decide (bitAt (s.srcMem.read (s.srcBitAddr sx sy)) (sx % 8) = 1) else true

/-- `colour(sx, sy)` on the nibble layout: FG's channels for depth 1, the quantised red, green and blue bytes for
depth 32; the alpha byte is not read (R135). On the page layout the colour is the bit FG.MONO, which `paintPage`
takes from the register. -/
def State.sourceColour (s : State) (sx sy : Nat) : Rgb :=
  if s.depthOne then s.reg.fg.rgb
  else
    let p := s.srcPixelAddr sx sy
    ⟨(quant4 (s.srcMem.read p)).setWidth 4, (quant4 (s.srcMem.read (p + 1))).setWidth 4,
     (quant4 (s.srcMem.read (p + 2))).setWidth 4⟩

/-- `sample(x, y)` (R134): the colour where the source is set at destination pixel `(x, y)`, none where it is unset
(outside the source's bounds, or a packed bit of 0). -/
def State.sample (s : State) (x y : Nat) : Option Rgb :=
  match s.sourceCoord x y with
  | none => none
  | some (sx, sy) => if s.sourceBit sx sy then some (s.sourceColour sx sy) else none

/-- `serialByte(i)`, the byte sent for framebuffer byte `i` (43_serialize.md R192). -/
def State.serialByte (s : State) (i : Nat) : Byte :=
  if s.nibbleLayout then s.fbMem.read i &&& 0x0F else s.fbMem.read i

/-- `serialByte(0), ..., serialByte(fbSize - 1)` (R190 to R192). -/
def State.serialBytes (s : State) : List Byte := (List.range s.fbSize).map s.serialByte

end Sys2Proof.Machine
end

