-- ==== Sys2Proof/Machine/Reset.lean ====
section
/-! DEFINITION. The reset input (70_reset_and_hazards.md R230, R231; 10_state.md R59). -/

namespace Sys2Proof.Machine

/-- Every piece of engine state at its reset value (R59). FBMEM is drawn anew; SRCMEM is not touched; the model's own
inputs and counters go on (log entry 7). -/
def State.reinitialise (s : State) : State :=
  { s with
    reg := Regs.reset
    fr := Framer.reset
    fbMem := s.fbMem.redraw s.nextDraw
    log := []
    phase := .idle
    inReset := false
    nextDraw := s.nextDraw + 1 }

/-- Reset is asserted: a command that waits for the transport is abandoned, and its transaction is not logged
(R231, R236); the engine executes nothing and admits no access until the release (R230). -/
def State.assertReset (s : State) : State := { s with phase := .idle, inReset := true }

/-- Reset is released: "every piece of state holds the value of R59 and the engine is idle" (R230). Releasing an
input that is not asserted changes nothing: log entry 14. -/
def State.releaseReset (s : State) : State := if s.inReset then s.reinitialise else s

end Sys2Proof.Machine
end

