-- ==== Sys2Proof/Machine/Bus.lean ====
section
/-! DEFINITION. Host accesses: the register block (10_state.md R32 to R48), FBMEM and SRCMEM (20_memory.md R76, R81,
R82), and what the next event at the boundary asks of the engine (R83, R216, R230). -/

namespace Sys2Proof.Machine

/-- The byte offset of a register (R32). -/
def regOffset : RegName → Nat
  | .cmd => 0x00
  | .status => 0x04
  | .result => 0x08
  | .framer => 0x0C
  | .fbLayout => 0x10
  | .fbW => 0x14
  | .fbH => 0x18
  | .srcBase => 0x1C
  | .srcW => 0x20
  | .srcH => 0x24
  | .srcDepth => 0x28
  | .xoff => 0x2C
  | .yoff => 0x30
  | .fg => 0x34
  | .bg => 0x38

/-- The fifteen registers of R32. -/
def allRegs : List RegName :=
  [.cmd, .status, .result, .framer, .fbLayout, .fbW, .fbH, .srcBase, .srcW, .srcH, .srcDepth, .xoff, .yoff, .fg, .bg]

/-- The register at a byte offset; none at the reserved offsets 0x3C to 0xFF (R32, R71). -/
def regAt (offset : Nat) : Option RegName := allRegs.find? fun r => regOffset r == offset

/-- What a read of FG or BG returns: MONO in bit 16, R, G, B in bits [11:0], other bits 0 (R47). -/
def Colour.word (c : Colour) : Word := (0 : BitVec 15) ++ c.mono ++ (0 : BitVec 4) ++ c.r ++ c.g ++ c.b

/-- The fields a write to FG or BG stores (R47). -/
def Colour.ofWord (v : Word) : Colour :=
  ⟨v.extractLsb' 16 1, v.extractLsb' 8 4, v.extractLsb' 4 4, v.extractLsb' 0 4⟩

/-- What a read of STATUS returns (R35). -/
def Regs.statusWord (r : Regs) : Word := (0 : BitVec 24) ++ r.lastErr ++ (0 : BitVec 3) ++ r.lastOk

/-- What a read of FRAMER returns: CURSOR in [2:0], PREV in [15:8] (R37). -/
def Framer.word (f : Framer) : Word := (0 : BitVec 16) ++ f.prev ++ (0 : BitVec 5) ++ f.cursor

/-- What a host read of a register returns; a read of CMD returns 0 (R32 to R48). -/
def readReg (s : State) : RegName → Word
  | .cmd => 0
  | .status => s.reg.statusWord
  | .result => s.reg.result.setWidth 32
  | .framer => s.fr.word
  | .fbLayout => s.reg.fbLayout.setWidth 32
  | .fbW => s.reg.fbW.setWidth 32
  | .fbH => s.reg.fbH.setWidth 32
  | .srcBase => s.reg.srcBase
  | .srcW => s.reg.srcW.setWidth 32
  | .srcH => s.reg.srcH.setWidth 32
  | .srcDepth => s.reg.srcDepth.setWidth 32
  | .xoff => s.reg.xoff.setWidth 32
  | .yoff => s.reg.yoff.setWidth 32
  | .fg => s.reg.fg.word
  | .bg => s.reg.bg.word

/-- What a host write of `v` stores: the field bits of a RW register; nothing in a read-only one (R32, R33). CMD stores
nothing either: a write to it issues a command (R34), see `accessAction`. -/
def writeReg (r : Regs) (v : Word) : RegName → Regs
  | .cmd => r
  | .status => r
  | .result => r
  | .framer => r
  | .fbLayout => { r with fbLayout := v.setWidth 1 }
  | .fbW => { r with fbW := v.setWidth 16 }
  | .fbH => { r with fbH := v.setWidth 16 }
  | .srcBase => { r with srcBase := v }
  | .srcW => { r with srcW := v.setWidth 16 }
  | .srcH => { r with srcH := v.setWidth 16 }
  | .srcDepth => { r with srcDepth := v.setWidth 8 }
  | .xoff => { r with xoff := v.setWidth 16 }
  | .yoff => { r with yoff := v.setWidth 16 }
  | .fg => { r with fg := Colour.ofWord v }
  | .bg => { r with bg := Colour.ofWord v }

/-- Whether R81 admits an access, reset apart: a 32-bit REG access at a multiple of 4 inside the 256 bytes, or a
single-byte access to a memory at an address below its size. -/
def admitted (s : State) (a : Access) : Bool :=
  match a.space with
  | .reg => decide (a.bytes = 4) && decide (a.addr % 4 = 0) && decide (a.addr < 256)
  | .fbMem => decide (a.bytes = 1) && decide (a.addr < s.fbMem.size)
  | .srcMem => decide (a.bytes = 1) && decide (a.addr < s.srcMem.size)

/-- What the next event asks of the engine. -/
inductive BusAction where
  /-- Nothing happens: no event is left, or the host is blocked by a command that waits (R83, R215, R236). -/
  | still
  /-- The event is complete, with this state after it. -/
  | finished (t : State)
  /-- The access is refused with a bus error (R81, R216). -/
  | busError
  /-- A command word was written to CMD, in this state (R34). -/
  | issue (w : Word) (t : State)
deriving DecidableEq, Repr

/-- The host access that stood first is taken; it has returned no value yet. -/
def State.accept (s : State) (rest : List HostEvent) : State := { s with host := rest, readData := none }

/-- The value a read returns to the host (R33, R76). -/
def State.returnData (s : State) (v : Word) : State := { s with readData := some v }

/-- What an admitted access reads: reserved offsets read 0 (R71). -/
def accessRead (s : State) (a : Access) : Word :=
  match a.space with
  | .reg =>
    match regAt a.addr with
    | some r => readReg s r
    | none => 0
  | .fbMem => (s.fbMem.read a.addr).setWidth 32
  | .srcMem => (s.srcMem.read a.addr).setWidth 32

/-- What an admitted write does when it is not to CMD: reserved offsets ignore it (R71). -/
def accessWrite (s : State) (a : Access) (v : Word) : State :=
  match a.space with
  | .reg =>
    match regAt a.addr with
    | some r => { s with reg := writeReg s.reg v r }
    | none => s
  | .fbMem => { s with fbMem := s.fbMem.write a.addr (v.setWidth 8) }
  | .srcMem => { s with srcMem := s.srcMem.write a.addr (v.setWidth 8) }

/-- The access is to the command register (R34). -/
def Access.toCmd (a : Access) : Bool := decide (a.space = .reg) && decide (a.addr = regOffset .cmd)

/-- An admitted access, in the state that has taken it (R33, R34, R76, R82). -/
def accessAction (s : State) (a : Access) : BusAction :=
  match a.dir with
  | .read => .finished (s.returnData (accessRead s a))
  | .write v => if a.toCmd then .issue v s else .finished (accessWrite s a v)

/-- What the first host event asks of the engine. While reset is asserted every access is refused (R230); while a
command waits no access is serviced, and only the reset input ends it (R83, R236). -/
def hostAction (s : State) : BusAction :=
  match s.host with
  | [] => .still
  | .resetAssert :: rest => .finished (s.accept rest).assertReset
  | .resetRelease :: rest => .finished (s.accept rest).releaseReset
  | .access a :: rest =>
    if s.inReset then .busError
    else if s.phase ≠ .idle then .still
    else if admitted s a then accessAction (s.accept rest) a
    else .busError
  | .commandCutByReset _ :: rest =>
    if s.inReset then .busError
    else if s.phase ≠ .idle then .still
    else .finished (s.accept rest).assertReset

/-- The host access that writes `w` to CMD (R34). -/
def cmdWrite (w : Word) : HostEvent := .access ⟨.reg, regOffset .cmd, 4, .write w⟩

/-- The state in which the next thing that happens is the host's write of `w` to CMD: reset released, no command in
progress, and that access first among the host's events. -/
def State.withCommand (s : State) (w : Word) : State :=
  { s with host := cmdWrite w :: s.host, inReset := false, phase := .idle }

end Sys2Proof.Machine
end

