-- ==== Sys2Proof/Machine/Flags.lean ====
section
/-! DEFINITION. The status flags, STATUS.LAST_OK and STATUS.LAST_ERR, and the error codes they hold (10_state.md R35,
R53; 60_exceptions.md R201). The engine has no other flags. -/

namespace Sys2Proof.Machine

/-- The outcomes STATUS.LAST_ERR names (R201). -/
inductive ErrorCode where
  /-- The command succeeded. -/
  | none
  /-- The command word matches no command (30_encoding.md R105). -/
  | illegalCmd
  /-- Destination geometry refused (40_composite.md R131). -/
  | fbConfig
  /-- Source depth refused (R132). -/
  | depthUnsupported
  /-- Source footprint outside SRCMEM (R133). -/
  | srcRange
  /-- The transport answered failure (R206). -/
  | transportFail
deriving DecidableEq, Repr

/-- The 4-bit code of an outcome (R201). -/
def ErrorCode.code : ErrorCode → Nibble
  | .none => 0
  | .illegalCmd => 1
  | .fbConfig => 2
  | .depthUnsupported => 3
  | .srcRange => 4
  | .transportFail => 5

/-- Write both fields of STATUS, so that LAST_OK = 1 exactly when LAST_ERR = 0 (R35). -/
def State.setStatus (s : State) (e : ErrorCode) : State :=
  { s with reg := { s.reg with lastErr := e.code, lastOk := if e.code = 0 then 1 else 0 } }

/-- `succeed` (R12): the command ends with success. -/
def State.succeed (s : State) : State := s.setStatus .none

/-- `fail <Code>` (R12, R204): the command ends with an error code. Nothing but STATUS is saved, and no mode, mask or
stack changes: this is all the engine has of "trap entry". -/
def State.fail (s : State) (e : ErrorCode) : State := s.setStatus e

end Sys2Proof.Machine
end

