-- ==== Sys2Proof/Machine/Ops.lean ====
section
/-! DEFINITION. The operations the commands share: a transport transaction (60_exceptions.md R206), the packing step
`pushByte` (41_framer.md R160), the pushes of FLUSH and SENDF, and the ways a command ends (R200, R203, R204). The
engine has no exceptions to take or return from (R200, R205): ending a command with an error code is `State.fail`. -/

namespace Sys2Proof.Machine

/-- What a part of a command that may transmit comes to: it is done, with the boolean it returns, or the transport
never answers and the command waits for ever (R83, R236). -/
inductive Progress where
  | done (ok : Bool) (s : State)
  | waiting (s : State)
deriving DecidableEq, Repr

/-- The answer the transport gives to the (k+1)-th transaction from now: the settled one where State lists it, else
the free value (R206). Log entry 3. -/
def State.answerAt (s : State) (k : Nat) : TransportAnswer :=
  (s.answers[k]?).getD (Config.transportAnswer (s.asked + k))

/-- The state after an answer has been taken from the environment. -/
def State.takeAnswer (s : State) : State := { s with answers := s.answers.tail, asked := s.asked + 1 }

/-- The state with one more entry in the transport log (R56, R206). -/
def State.record (s : State) (bytes : List Byte) (ok : Bool) : State := { s with log := s.log ++ [⟨bytes, ok⟩] }

/-- `Transmit(b[0..n-1]) -> ok`: hand the bytes over as one transaction, wait for the answer, log both. A transport
that never answers leaves the command waiting, with nothing logged (R206, R236). -/
def transmit (s : State) (bytes : List Byte) : Progress :=
  match s.answerAt 0 with
  | .success => .done true (s.takeAnswer.record bytes true)
  | .failure => .done false (s.takeAnswer.record bytes false)
  | .silence => .waiting { s.takeAnswer with phase := .waiting bytes }

/-- `fr.frame[c] <- out` and `fr.prev <- d`, the two writes every push makes (R160). -/
def Framer.store (f : Framer) (cb : Bit) (d : Byte) : Framer :=
  { f with frame := f.frame.setIfInBounds f.cursor.toNat (framerByte f.cursor.toNat f.prev d cb), prev := d }

/-- `fr.frame[8] <- d`, "unmodified", made by the push at cursor 7 (R160). -/
def Framer.storeLast (f : Framer) (d : Byte) : Framer := { f with frame := f.frame.setIfInBounds 8 d }

/-- `fr.prev <- 0` and `fr.cursor <- 0`, after a transmission of either outcome (R160, R169). -/
def Framer.restart (f : Framer) : Framer := { f with prev := 0, cursor := 0 }

/-- `pushByte(cb, d) -> ok` (R160). -/
def pushByte (cb : Bit) (d : Byte) (s : State) : Progress :=
  if s.fr.cursor = 7 then
    let full := (s.fr.store cb d).storeLast d
    match transmit { s with fr := full } full.frame.toList with
    | .done ok t => .done ok { t with fr := t.fr.restart }
    | .waiting t => .waiting t
  else
    .done true { s with fr := { s.fr.store cb d with cursor := s.fr.cursor + 1 } }

/-- The loop of FLUSH: push the padding word until the cursor is 0, the cursor tested first; the result is that of the
last push made, `ok` when there was none (R165 to R167). `fuel` bounds the pushes; eight are never needed (R114). -/
def flushLoop (fuel : Nat) (ok : Bool) (cb : Bit) (noop : Byte) (s : State) : Progress :=
  match fuel with
  | 0 => .done ok s
  | n + 1 =>
    if s.fr.cursor = 0 then .done ok s
    else
      match pushByte cb noop s with
      | .done ok' t => flushLoop n ok' cb noop t
      | .waiting t => .waiting t

/-- The loop of SENDF: push each byte with the same control bit, stopping at the first push that fails (R191, R193). -/
def pushAll (cb : Bit) (bytes : List Byte) (s : State) : Progress :=
  match bytes with
  | [] => .done true s
  | b :: rest =>
    match pushByte cb b s with
    | .done true t => pushAll cb rest t
    | .done false t => .done false t
    | .waiting t => .waiting t

/-- `if ok: succeed else: fail TRANSPORT_FAIL`; a command that waits has not ended and writes no STATUS (R83, R236). -/
def endTransport (p : Progress) : Host.Outcome State Fault Refusal :=
  match p with
  | .done true s => .next s.succeed
  | .done false s => .next (s.fail .transportFail)
  | .waiting s => .next s

/-- What an illegal command word does: it fails with ILLEGAL_CMD and changes nothing but STATUS (30_encoding.md R105,
60_exceptions.md R202). -/
def illegalCommand (s : State) : Host.Outcome State Fault Refusal := .next (s.fail .illegalCmd)

end Sys2Proof.Machine
end

