-- ==== Sys2Proof/Machine/Composite.lean ====
section
/-! DEFINITION. The compositor commands COMPX, COMPW and COMPL over one shared procedure (40_composite.md R130 to R142). -/

namespace Sys2Proof.Machine

/-- The three blend modes (R130, R136). -/
inductive BlendMode where
  /-- EXCL, Exclusive. -/
  | exclusive
  /-- OVW, Overwrite. -/
  | overwrite
  /-- OVL, Overlay. -/
  | overlay
deriving DecidableEq, Repr

/-- The blend rule of R136 on a value of `n` bits: `set` says whether the source is set, `col` is its colour, `bg` the
background. -/
def blend {n : Nat} (mode : BlendMode) (set : Bool) (old col bg : BitVec n) : BitVec n :=
  match mode with
  | .exclusive => if set then old ^^^ col else old
  | .overwrite => if set then col else bg
  | .overlay => if set then col else old

/-- `writePage(mode, x, y, set)` (R137): bit `y % 8` of one byte is replaced, the other seven are written back. -/
def paintPage (s : State) (mode : BlendMode) (x y : Nat) (m : Memory) : Memory :=
  let a := s.pageAddr x y
  let old := bitAt (m.read a) (y % 8)
  let new := blend mode (s.sample x y).isSome old s.reg.fg.mono s.reg.bg.mono
  m.write a (setBit (m.read a) (y % 8) new)

/-- One channel of `writeNibble(mode, x, y, set, col)` (R138); where no line of R138 writes the byte, it is not
written. -/
def paintChannel (s : State) (mode : BlendMode) (x y ch : Nat) (m : Memory) : Memory :=
  let a := s.nibbleAddr x y + ch
  match mode, s.sample x y with
  | .exclusive, some col => m.write a (m.read a ^^^ (col.channel ch).setWidth 8)
  | .overwrite, some col => m.write a ((col.channel ch).setWidth 8)
  | .overwrite, none => m.write a ((s.reg.bg.rgb.channel ch).setWidth 8)
  | .overlay, some col => m.write a ((col.channel ch).setWidth 8)
  | .exclusive, none => m
  | .overlay, none => m

/-- The write of one destination pixel, by the destination's layout (R130). -/
def paintPixel (s : State) (mode : BlendMode) (x y : Nat) (m : Memory) : Memory :=
  if s.nibbleLayout then forUpto 3 (paintChannel s mode x y) m else paintPage s mode x y m

/-- The loop over every destination pixel (R130). The registers and SRCMEM it reads are those of `s`; no part of it
writes them (R139). -/
def paint (s : State) (mode : BlendMode) : Memory :=
  forUpto s.fbHeight (fun y m => forUpto s.fbWidth (fun x m' => paintPixel s mode x y m') m) s.fbMem

/-- The checks made before any write, in the order of R130 and R203: the code of the first that fails. -/
def compositeCheck (s : State) : ErrorCode :=
  if !s.geomOK then .fbConfig
  else if !s.depthOK then .depthUnsupported
  else if !s.srcInRange then .srcRange
  else .none

/-- `composite(mode)` (R130): a failed check changes STATUS only; otherwise the framebuffer is painted. -/
def composite (mode : BlendMode) (s : State) : Host.Outcome State Fault Refusal :=
  match compositeCheck s with
  | .none => .next (State.succeed { s with fbMem := paint s mode })
  | e => .next (s.fail e)

/-- COMPX: Exclusive (R140). -/
def execCompx (s : State) : Host.Outcome State Fault Refusal := composite .exclusive s

/-- COMPW: Overwrite (R141). -/
def execCompw (s : State) : Host.Outcome State Fault Refusal := composite .overwrite s

/-- COMPL: Overlay (R142). -/
def execCompl (s : State) : Host.Outcome State Fault Refusal := composite .overlay s

end Sys2Proof.Machine
end

