-- ==== Sys2Proof/Machine/Framer.lean ====
section
/-! DEFINITION. The framer commands PUSH and FLUSH (41_framer.md R160, R165). -/

namespace Sys2Proof.Machine

/-- PUSH cb, data (R160). -/
def execPush (cb : Bit) (data : Byte) (s : State) : Host.Outcome State Fault Refusal :=
  endTransport (pushByte cb data s)

/-- FLUSH cb, noop (R165 to R167). -/
def execFlush (cb : Bit) (noop : Byte) (s : State) : Host.Outcome State Fault Refusal :=
  endTransport (flushLoop 8 true cb noop s)

end Sys2Proof.Machine
end

