-- ==== Sys2Proof/Machine/Serialize.lean ====
section
/-! DEFINITION. The serialiser commands SENDR and SENDF (43_serialize.md R190 to R193). -/

namespace Sys2Proof.Machine

/-- SENDR: the whole framebuffer as one transaction (R190). -/
def execSendr (s : State) : Host.Outcome State Fault Refusal :=
  if s.geomOK then endTransport (transmit s s.serialBytes) else .next (s.fail .fbConfig)

/-- SENDF cb: every framebuffer byte through the framer, stopping at the first failure (R191, R193). -/
def execSendf (cb : Bit) (s : State) : Host.Outcome State Fault Refusal :=
  if s.geomOK then endTransport (pushAll cb s.serialBytes s) else .next (s.fail .fbConfig)

end Sys2Proof.Machine
end

