-- ==== Sys2Proof/Machine/Utility.lean ====
section
/-! DEFINITION. The bit utilities REVBITS and QUANT4 (42_utility.md R180 to R182). -/

namespace Sys2Proof.Machine

/-- `reg.RESULT <- v` (R36). -/
def State.setResult (s : State) (v : Byte) : State := { s with reg := { s.reg with result := v } }

/-- REVBITS byte (R180). -/
def execRevbits (byte : Byte) (s : State) : Host.Outcome State Fault Refusal :=
  .next (s.setResult (reverseBits byte)).succeed

/-- QUANT4 byte (R181). -/
def execQuant4 (byte : Byte) (s : State) : Host.Outcome State Fault Refusal :=
  .next (s.setResult (quant4 byte)).succeed

end Sys2Proof.Machine
end

