-- ==== Sys2Proof/Machine/Dispatch.lean ====
section
/-! DEFINITION. One arm per command of the opcode table (30_encoding.md R104). -/

namespace Sys2Proof.Machine

def exec (i : Instr) (s : State) : Host.Outcome State Fault Refusal :=
  match i with
  | .push cb data => Sys2Proof.Machine.execPush cb data s
  | .flush cb noop => Sys2Proof.Machine.execFlush cb noop s
  | .compx => Sys2Proof.Machine.execCompx s
  | .compw => Sys2Proof.Machine.execCompw s
  | .compl => Sys2Proof.Machine.execCompl s
  | .revbits byte => Sys2Proof.Machine.execRevbits byte s
  | .quant4 byte => Sys2Proof.Machine.execQuant4 byte s
  | .sendr => Sys2Proof.Machine.execSendr s
  | .sendf cb => Sys2Proof.Machine.execSendf cb s

end Sys2Proof.Machine
end

