-- ==== Sys2Proof/Machine/Step.lean ====
section
/-! DEFINITION. One step of the machine: one event at the engine's boundary, a CMD write running its command to the end
(00_scope.md R13; 20_memory.md R83). -/

namespace Sys2Proof.Machine

/-- Run a command word written to CMD (10_state.md R34): decode it and execute it; an illegal word ends with
ILLEGAL_CMD (30_encoding.md R105, R110). -/
def runWord (w : Word) (s : State) : Host.Outcome State Fault Refusal :=
  match decode w with
  | .command i => exec i s
  | .illegal _ => illegalCommand s

/-- One step: the first host event. With no event left, or the host blocked, the state stays as it is
(60_exceptions.md R215; 70_reset_and_hazards.md R236). -/
def step (s : State) : Host.Outcome State Fault Refusal :=
  match hostAction s with
  | .still => .next s
  | .finished t => .next t
  | .busError => .fault .busError
  | .issue w t => runWord w t

/-- `s` with the command word of the low `nbits` bits of `w` about to be written to CMD by the host: the engine
fetches nothing (10_state.md R31), so this stands for the host's next access. Log entry 1. -/
def State.withFetchWord (s : State) (nbits w : Nat) : State := s.withCommand (BitVec.ofNat 32 (w % 2 ^ nbits))

end Sys2Proof.Machine
end

