-- ==== Sys2Proof/Machine/Assembler.lean ====
section
/-! DEFINITION. The assembler of 30_encoding.md: statements and pseudo-instructions as host events (R108, R109), and the
text form of one statement (R108). Log entry 12. -/

namespace Sys2Proof.Machine

/-- The command a command statement stands for (R108). -/
def statementInstr : Statement → Option Instr
  | .push cb data => some (.push (BitVec.ofNat 1 cb) (BitVec.ofNat 8 data))
  | .flush cb noop => some (.flush (BitVec.ofNat 1 cb) (BitVec.ofNat 8 noop))
  | .compx => some .compx
  | .compw => some .compw
  | .compl => some .compl
  | .revbits byte => some (.revbits (BitVec.ofNat 8 byte))
  | .quant4 byte => some (.quant4 (BitVec.ofNat 8 byte))
  | .sendr => some .sendr
  | .sendf cb => some (.sendf (BitVec.ofNat 1 cb))
  | _ => none

/-- The host access of a host access statement (R108). -/
def statementAccess : Statement → Option Access
  | .wr reg value => some ⟨.reg, regOffset reg, 4, .write (BitVec.ofNat 32 value)⟩
  | .rd reg => some ⟨.reg, regOffset reg, 4, .read⟩
  | .sbFb addr byte => some ⟨.fbMem, addr, 1, .write (BitVec.ofNat 32 byte)⟩
  | .lbFb addr => some ⟨.fbMem, addr, 1, .read⟩
  | .sbSrc addr byte => some ⟨.srcMem, addr, 1, .write (BitVec.ofNat 32 byte)⟩
  | .lbSrc addr => some ⟨.srcMem, addr, 1, .read⟩
  | _ => none

/-- `(mono << 16) | (r << 8) | (g << 4) | b` (R109). -/
def colourValue (mono r g b : Nat) : Nat := (mono <<< 16) ||| (r <<< 8) ||| (g <<< 4) ||| b

/-- `SETSRC base, w, h, depth` (R109). -/
def expandSetsrc (base w h depth : Nat) : List Statement :=
  [.wr .srcBase base, .wr .srcW w, .wr .srcH h, .wr .srcDepth depth]

/-- The expansion of a pseudo-instruction (R109); any other statement is its own expansion. PUSHSEQ with no data byte
expands to nothing: DESIGN CHOICE, log entry 12. -/
def expandStatement : Statement → List Statement
  | .setfb layout w h => [.wr .fbLayout layout, .wr .fbW w, .wr .fbH h]
  | .setsrc base w h depth => expandSetsrc base w h depth
  | .setoff x y => [.wr .xoff (x % 65536).toNat, .wr .yoff (y % 65536).toNat]
  | .setfg mono r g b => [.wr .fg (colourValue mono r g b)]
  | .setbg mono r g b => [.wr .bg (colourValue mono r g b)]
  | .pushseq cb ds => ds.map fun d => .push cb d
  | .fillbg => expandSetsrc 0 0 0 1 ++ [.compw]
  | other => [other]

/-- The host event of a statement that is no pseudo-instruction: a command statement is the CMD write of its encoding,
a host access statement is its access (R108). -/
def statementEvent (st : Statement) : Option HostEvent :=
  match statementInstr st, statementAccess st with
  | some i, _ => some (cmdWrite (encode i))
  | none, some a => some (.access a)
  | none, none => none

/-- The host events of a statement; none is an assembly error (R108). -/
def assemble (st : Statement) : Option (List HostEvent) :=
  if st.wellFormed then some ((expandStatement st).filterMap statementEvent) else none

/-- The host events of a list of statements, in order; none if any of them is an assembly error. -/
def assembleAll : List Statement → Option (List HostEvent)
  | [] => some []
  | st :: rest =>
    match assemble st, assembleAll rest with
    | some es, some more => some (es ++ more)
    | _, _ => none

/-- Blanks between the parts of a statement. -/
def isBlank (c : Char) : Bool := c == ' ' || c == '\t'

/-- A text without the blanks at its ends. -/
def trimBlanks (cs : List Char) : List Char := (((cs.dropWhile isBlank).reverse).dropWhile isBlank).reverse

/-- The part of a line before its comment: "`;` starts a comment" (R108). -/
def dropComment (line : List Char) : List Char := line.takeWhile fun c => c != ';'

/-- The operands of a statement, between commas. -/
def splitCommas : List Char → List (List Char)
  | [] => [[]]
  | c :: rest =>
    if c == ',' then [] :: splitCommas rest
    else
      match splitCommas rest with
      | [] => [[c]]
      | first :: more => (c :: first) :: more

/-- The value of a digit, of either case. -/
def digitValue (c : Char) : Option Nat :=
  let n := c.toNat
  if 48 ≤ n ∧ n ≤ 57 then some (n - 48)
  else if 97 ≤ n ∧ n ≤ 102 then some (n - 87)
  else if 65 ≤ n ∧ n ≤ 70 then some (n - 55)
  else none

/-- Digits of a base after the value `acc` of those already read. -/
def readDigits (base acc : Nat) : List Char → Option Nat
  | [] => some acc
  | c :: rest =>
    match digitValue c with
    | some d => if d < base then readDigits base (acc * base + d) rest else none
    | none => none

/-- A number of at least one digit. -/
def readNumber (base : Nat) (cs : List Char) : Option Nat := if cs.isEmpty then none else readDigits base 0 cs

/-- "Numbers are decimal, `0x` hexadecimal or `0b` binary" (R108). -/
def readNat (cs : List Char) : Option Nat :=
  match cs with
  | '0' :: 'x' :: rest => readNumber 16 rest
  | '0' :: 'b' :: rest => readNumber 2 rest
  | _ => readNumber 10 cs

/-- A number that may carry a minus sign, for SETOFF (R109). -/
def readInt (cs : List Char) : Option Int :=
  match cs with
  | '-' :: rest => (readNat rest).map fun n => -(n : Int)
  | _ => (readNat cs).map fun n => (n : Int)

/-- The name of a register in the text (R32, R108). -/
def regText : RegName → String
  | .cmd => "CMD"
  | .status => "STATUS"
  | .result => "RESULT"
  | .framer => "FRAMER"
  | .fbLayout => "FB_LAYOUT"
  | .fbW => "FB_W"
  | .fbH => "FB_H"
  | .srcBase => "SRC_BASE"
  | .srcW => "SRC_W"
  | .srcH => "SRC_H"
  | .srcDepth => "SRC_DEPTH"
  | .xoff => "XOFF"
  | .yoff => "YOFF"
  | .fg => "FG"
  | .bg => "BG"

/-- The register a text names. -/
def readRegName (cs : List Char) : Option RegName := allRegs.find? fun r => (regText r).toList == cs

/-- A statement without operands, in its short or long form (R108, R109). -/
def readPlain (m : List Char) : Option Statement :=
  if m = "COMPX".toList ∨ m = "COMPOSITE.EXCLUSIVE".toList then some .compx
  else if m = "COMPW".toList ∨ m = "COMPOSITE.OVERWRITE".toList then some .compw
  else if m = "COMPL".toList ∨ m = "COMPOSITE.OVERLAY".toList then some .compl
  else if m = "SENDR".toList then some .sendr
  else if m = "FILLBG".toList then some .fillbg
  else none

/-- A statement whose operands are all unsigned numbers (R108, R109). A PUSHSEQ of a control bit alone is read with no
data byte: DESIGN CHOICE, log entry 12. -/
def readNumeric (m : List Char) (ns : List Nat) : Option Statement :=
  if m = "PUSHSEQ".toList then
    match ns with
    | cb :: ds => some (.pushseq cb ds)
    | [] => none
  else
    match ns with
    | [a] =>
      if m = "REVBITS".toList then some (.revbits a)
      else if m = "QUANT4".toList then some (.quant4 a)
      else if m = "SENDF".toList then some (.sendf a)
      else if m = "LB.FB".toList then some (.lbFb a)
      else if m = "LB.SRC".toList then some (.lbSrc a)
      else none
    | [a, b] =>
      if m = "PUSH".toList then some (.push a b)
      else if m = "FLUSH".toList then some (.flush a b)
      else if m = "SB.FB".toList then some (.sbFb a b)
      else if m = "SB.SRC".toList then some (.sbSrc a b)
      else none
    | [a, b, c] => if m = "SETFB".toList then some (.setfb a b c) else none
    | [a, b, c, d] =>
      if m = "SETSRC".toList then some (.setsrc a b c d)
      else if m = "SETFG".toList then some (.setfg a b c d)
      else if m = "SETBG".toList then some (.setbg a b c d)
      else none
    | _ => none

/-- The statement of a mnemonic and its operand texts; none is an assembly error. -/
def readStatement (m : List Char) (ops : List (List Char)) : Option Statement :=
  if m = "WR".toList then
    match ops with
    | [r, v] =>
      match readRegName r, readNat v with
      | some reg, some value => some (.wr reg value)
      | _, _ => none
    | _ => none
  else if m = "RD".toList then
    match ops with
    | [r] => (readRegName r).map .rd
    | _ => none
  else if m = "SETOFF".toList then
    match ops.map readInt with
    | [some x, some y] => some (.setoff x y)
    | _ => none
  else
    match ops.mapM readNat with
    | some ns => readNumeric m ns
    | none => none

/-- What a line of assembler text is. -/
inductive LineResult where
  /-- Blank, or a comment only. -/
  | blank
  | statement (st : Statement)
  /-- An assembly error. -/
  | error
deriving DecidableEq, Repr

/-- One line of text: "One statement per line; `;` starts a comment" (R108). -/
def readLine (line : List Char) : LineResult :=
  let text := trimBlanks (dropComment line)
  let m := text.takeWhile fun c => !isBlank c
  let rest := trimBlanks (text.dropWhile fun c => !isBlank c)
  if text.isEmpty then .blank
  else
    let st := if rest.isEmpty then readPlain m else readStatement m ((splitCommas rest).map trimBlanks)
    match st with
    | some st => if st.wellFormed then .statement st else .error
    | none => .error

end Sys2Proof.Machine
end

