-- ==== Sys2Proof/Safety.lean ====
section
/-! DEFINITION. What claims about runs are stated in: the invariant of the engine's state, when a command is stuck, what a
logged transaction may have delivered, and the state two agents can tell apart. -/

namespace Sys2Proof.Machine

/-- The codes R201 lets a command leave in LAST_ERR, and LAST_OK = 1 exactly when LAST_ERR = 0 (R35, R201). -/
def Regs.statusLegal (r : Regs) : Bool :=
  decide (r.lastErr.toNat ≤ 5) && decide ((r.lastOk = 1) ↔ (r.lastErr = 0))

/-- `fr.prev` is 0 at the start of a frame ("0 just after a transmission", R50, R59). -/
def Framer.startsClean (f : Framer) : Bool := decide (f.cursor = 0 → f.prev = 0)

/-- A waiting command has handed over at least one byte (R162, R190), and none waits while reset is asserted (R231). -/
def State.phaseLegal (s : State) : Bool :=
  match s.phase with
  | .idle => true
  | .waiting bytes => !bytes.isEmpty && !s.inReset

/-- The invariant every step keeps: both memories in canonical form and of a legal size (R9, R72, R73), their contents
drawn under different numbers already used (R59), STATUS legal (R35, R201), the framer clean at the start of a frame
(R50, R52), no empty transaction logged or waiting (R162, R190). -/
def State.Inv (s : State) : Prop :=
  s.fbMem.wf = true ∧ s.srcMem.wf = true ∧ 1 ≤ s.fbMem.size ∧ s.srcMem.size ≤ 2 ^ 32 ∧
  s.fbMem.draw < s.nextDraw ∧ s.srcMem.draw < s.nextDraw ∧ s.fbMem.draw ≠ s.srcMem.draw ∧
  s.reg.statusLegal = true ∧ s.fr.startsClean = true ∧
  (∀ t ∈ s.log, t.bytes ≠ []) ∧ s.phaseLegal = true

/-- A command waits for a transport that never answers (R236). -/
def State.stuck (s : State) : Bool := decide (s.phase ≠ .idle)

/-- What a logged transaction may have delivered to the bus: all of its bytes on success; on failure any part of
them, or none (R207). No claim can learn which part. -/
def Transaction.mayHaveDelivered (t : Transaction) (delivered : List Byte) : Prop :=
  if t.ok then delivered = t.bytes else delivered.Sublist t.bytes

/-- Two framers agree on all that can still reach the host or the transport: cursor, prev, and the frame bytes below
the cursor (R51, R57). -/
def Framer.agree (f g : Framer) : Prop :=
  f.cursor = g.cursor ∧ f.prev = g.prev ∧ ∀ k : Nat, k < f.cursor.toNat → f.frame[k]? = g.frame[k]?

/-- Two states agree on everything but frame bytes at and above the cursor, which no command sends before it has
rewritten them (R51). -/
def State.agree (s t : State) : Prop := s.fr.agree t.fr ∧ t = { s with fr := t.fr }

/-- The state with the two fields of STATUS as given (R35). -/
def State.withStatus (s : State) (ok : Bit) (err : Nibble) : State :=
  { s with reg := { s.reg with lastOk := ok, lastErr := err } }

/-- R79 in terms of the registers: the bytes the framebuffer occupies. -/
def State.framebufferBytes (s : State) : Nat :=
  if s.reg.fbLayout = 1 then s.reg.fbW.toNat * s.reg.fbH.toNat * 3 else s.reg.fbW.toNat * s.reg.fbH.toNat / 8

/-- R131 in terms of the registers: the destination geometry a command accepts. -/
def State.geometryAccepted (s : State) : Prop :=
  1 ≤ s.reg.fbW.toNat ∧ 1 ≤ s.reg.fbH.toNat ∧ (s.reg.fbLayout = 1 ∨ s.reg.fbH.toNat % 8 = 0) ∧
  s.framebufferBytes ≤ s.fbMem.size

/-- R192 in terms of the registers: what a serialising command sends, in order. -/
def State.bytesToSend (s : State) : List Byte :=
  (List.range s.framebufferBytes).map fun i => if s.reg.fbLayout = 1 then s.fbMem.read i &&& 0x0F else s.fbMem.read i

/-- R132 in terms of the registers: the source depth a compositing command accepts. -/
def State.depthAccepted (s : State) : Prop :=
  (s.reg.srcDepth = 1 ∨ s.reg.srcDepth = 32) ∧ ¬ (s.reg.fbLayout = 0 ∧ s.reg.srcDepth = 32)

/-- R133 in terms of the registers: the source footprint lies in SRCMEM. -/
def State.rangeAccepted (s : State) : Prop :=
  s.reg.srcBase.toNat
    + (if s.reg.srcDepth = 1 then (s.reg.srcW.toNat + 7) / 8 else s.reg.srcW.toNat * 4) * s.reg.srcH.toNat
    ≤ s.srcMem.size

/-- All three checks of a compositing command pass (R130). -/
def State.compositeAccepted (s : State) : Prop := s.geometryAccepted ∧ s.depthAccepted ∧ s.rangeAccepted

/-- `t` is `s` with other FBMEM contents below `fbSize`, and nothing else changed (R139). -/
def State.paintedFrom (t s : State) : Prop :=
  t = { s with fbMem := t.fbMem } ∧ t.fbMem.size = s.fbMem.size ∧ t.fbMem.draw = s.fbMem.draw ∧
  ∀ a, s.framebufferBytes ≤ a → t.fbMem.read a = s.fbMem.read a

/-- The page-layout pixel `(x, y)` (R77). -/
def State.pagePixel (s : State) (x y : Nat) : Bit :=
  BitVec.ofBool ((s.fbMem.read (x + y / 8 * s.reg.fbW.toNat)).getLsbD (y % 8))

/-- The byte of channel `ch` of nibble-layout pixel `(x, y)` (R78). -/
def State.channelByte (s : State) (x y ch : Nat) : Byte := s.fbMem.read ((x + y * s.reg.fbW.toNat) * 3 + ch)

/-- The bytes of a colour as the nibble layout holds them: high nibble 0 (R138). -/
def Rgb.channelByte (c : Rgb) (ch : Nat) : Byte := (c.channel ch).setWidth 8

/-- The source is unset at every destination pixel (R143). -/
def State.sourceUnset (s : State) : Prop :=
  ∀ x y : Nat, x < s.reg.fbW.toNat → y < s.reg.fbH.toNat → s.sample x y = none

/-- The word at position `k` of a sequence of 9-bit words `(cb, d)`. -/
def wordAt (ws : List (Bit × Byte)) (k : Nat) : Bit × Byte := ws.getD k (0, 0)

/-- A 9-bit word `{cb, d}`, the control bit most significant (R14). -/
def nineBits (w : Bit × Byte) : BitVec 9 := w.1 ++ w.2

/-- Byte `c` of the frame of eight words, in the closed form of R161. -/
def packedByte (ws : List (Bit × Byte)) (c : Nat) : Byte :=
  if c = 0 then ((wordAt ws 0).1.setWidth 8 <<< 7) ||| ((wordAt ws 0).2 >>> 1)
  else if c < 8 then
    ((wordAt ws (c - 1)).2 <<< (8 - c)) ||| ((wordAt ws c).1.setWidth 8 <<< (7 - c)) ||| ((wordAt ws c).2 >>> (c + 1))
  else (wordAt ws 7).2

/-- The nine bytes of the frame of eight words (R161). -/
def packWords (ws : List (Bit × Byte)) : List Byte := (List.range 9).map (packedByte ws)

/-- The PUSH commands of a sequence of words. -/
def pushCommands (ws : List (Bit × Byte)) : List Instr := ws.map fun w => .push w.1 w.2

/-- Commands one after another, as the host issues them: the next one only when the one before has ended (R83). -/
def runCommands (is : List Instr) (s : State) : Host.Outcome State Fault Refusal :=
  match is with
  | [] => .next s
  | i :: rest =>
    match exec i s with
    | .next t => if t.phase = .idle then runCommands rest t else .next t
    | .fault r => .fault r
    | .refused r => .refused r

/-- `n` steps, stopping at the first fault or refusal. -/
def runSteps (n : Nat) (s : State) : Host.Outcome State Fault Refusal :=
  match n with
  | 0 => .next s
  | k + 1 =>
    match step s with
    | .next t => runSteps k t
    | .fault r => .fault r
    | .refused r => .refused r

/-- The read-write rows of R32's table: the register, its byte offset, and the field bits a host write stores. -/
def readWriteRegs : List (RegName × Nat × Word) :=
  [(.fbLayout, 0x10, 0x00000001), (.fbW, 0x14, 0x0000FFFF), (.fbH, 0x18, 0x0000FFFF),
   (.srcBase, 0x1C, 0xFFFFFFFF), (.srcW, 0x20, 0x0000FFFF), (.srcH, 0x24, 0x0000FFFF),
   (.srcDepth, 0x28, 0x000000FF), (.xoff, 0x2C, 0x0000FFFF), (.yoff, 0x30, 0x0000FFFF),
   (.fg, 0x34, 0x00010FFF), (.bg, 0x38, 0x00010FFF)]

end Sys2Proof.Machine
end

