-- ==== Sys2Proof/Certificates/Slice0/Obligations.lean ====
section
/-! DEFINITION. The statements for the provers. Each docstring names the rules of spec/ a statement formalises. -/

open Sys2Proof Sys2Proof.Machine

/-! ### Encoding -/

/-- R104, R110: the decoder reads every command back from its word, with every operand at every value. -/
def Obligations.DecodeOfEncodeIsTheCommand : Prop :=
  ∀ i : Instr, i.wellFormed = true → decode (encode i) = .command i

/-- R100, R102, D38: a word that is a command is that command's word, so each command has one word. -/
def Obligations.EncodeOfDecodeIsTheWord : Prop :=
  ∀ (w : Word) (i : Instr), decode w = .command i → encode i = w

/-- R110: the decoder returns the same command for a word as R104's match and mask table. -/
def Obligations.DecoderAgreesWithTheMatchTable : Prop :=
  ∀ w : Word, ∀ r ∈ opcodeTable,
    r.matchesWord w = true ↔ ∃ i, decode w = .command i ∧ i.row = r

/-- R104: no two rows match the same word. -/
def Obligations.NoWordMatchesTwoRows : Prop :=
  ∀ w : Word, ∀ r ∈ opcodeTable, ∀ q ∈ opcodeTable, r.matchesWord w = true → q.matchesWord w = true → r = q

/-- R105: a word that matches no row is illegal, the listed words are such words, and an illegal word fails with
ILLEGAL_CMD and changes nothing but STATUS. -/
def Obligations.IllegalWordsChangeStatusOnly : Prop :=
  (∀ w : Word, (∀ r ∈ opcodeTable, r.matchesWord w = false) →
    (∃ why, decode w = .illegal why) ∧ ∀ s, runWord w s = .next (s.withStatus 0 1)) ∧
  (∀ w : Word,
    opcField w = 0 ∨ 6 ≤ (opcField w).toNat ∨ rsvhField w ≠ 0 ∨ rsvlField w ≠ 0 ∨
    ((opcField w = 1 ∨ opcField w = 2) ∧ funcField w ≠ 0) ∨
    (opcField w = 3 ∧ 3 ≤ (funcField w).toNat) ∨
    ((opcField w = 4 ∨ opcField w = 5) ∧ 2 ≤ (funcField w).toNat) ∨
    (opcField w = 3 ∧ (cbField w ≠ 0 ∨ dataField w ≠ 0)) ∨
    (opcField w = 4 ∧ cbField w ≠ 0) ∨
    (opcField w = 5 ∧ (dataField w ≠ 0 ∨ (funcField w = 0 ∧ cbField w ≠ 0))) →
    ∀ r ∈ opcodeTable, r.matchesWord w = false)

/-- The command words of 95_test_vectors.md 2.1 decode to the commands it lists. -/
def Obligations.SpecWordsDecode : Prop :=
  decode 0x1000002A = .command (.push 0 0x2A) ∧ decode 0x100001FF = .command (.push 1 0xFF) ∧
  decode 0x200001E3 = .command (.flush 1 0xE3) ∧ decode 0x30000000 = .command .compx ∧
  decode 0x30001000 = .command .compw ∧ decode 0x30002000 = .command .compl ∧
  decode 0x400000B0 = .command (.revbits 0xB0) ∧ decode 0x400010AB = .command (.quant4 0xAB) ∧
  decode 0x50000000 = .command .sendr ∧ decode 0x50001100 = .command (.sendf 1) ∧
  decode 0x50001000 = .command (.sendf 0)

/-! ### One step -/

/-- R34, R110: when the host's next access writes a word to CMD that decodes to a command, one step takes the access
from the host and runs that command. That the host's accesses stand in a list of State is the model's: log entry 1. -/
def Obligations.StepRunsTheDecodedCommand : Prop :=
  ∀ (s : State) (w : Word) (i : Instr) (rest : List HostEvent),
    s.host = .access ⟨.reg, 0, 4, .write w⟩ :: rest → s.inReset = false → s.phase = .idle → decode w = .command i →
    step s = exec i { s with host := rest, readData := none }

/-- R34, R105, R202: when it writes a word that decodes to no command, one step takes the access and sets STATUS to
ILLEGAL_CMD, and changes nothing else (log entries 1 and 8). -/
def Obligations.StepOfAnIllegalWord : Prop :=
  ∀ (s : State) (w : Word) (rest : List HostEvent),
    s.host = .access ⟨.reg, 0, 4, .write w⟩ :: rest → s.inReset = false → s.phase = .idle →
    (∀ i, decode w ≠ .command i) →
    step s = .next (State.withStatus { s with host := rest, readData := none } 0 1)

/-- R215: with nothing left for the host to do, the engine keeps all its state (log entry 1). -/
def Obligations.IdleEngineKeepsItsState : Prop := ∀ s : State, s.host = [] → step s = .next s

/-! ### Utilities -/

/-- R180: REVBITS puts in RESULT the byte whose bit `k` is bit `7 - k` of the operand, always succeeds, and applied
twice gives the operand. -/
def Obligations.RevbitsReversesTheByte : Prop :=
  ∀ (b : Byte) (s : State), ∃ t : Byte,
    exec (.revbits b) s = .next (State.withStatus { s with reg := { s.reg with result := t } } 1 0) ∧
    (∀ k, k < 8 → t.getLsbD k = b.getLsbD (7 - k)) ∧
    exec (.revbits t) s = .next (State.withStatus { s with reg := { s.reg with result := b } } 1 0)

/-- R181: QUANT4 puts in RESULT the operand divided by 16, a value 0..15, and always succeeds. -/
def Obligations.Quant4DividesBySixteen : Prop :=
  ∀ (b : Byte) (s : State), ∃ t : Byte,
    exec (.quant4 b) s = .next (State.withStatus { s with reg := { s.reg with result := t } } 1 0) ∧
    t.toNat = b.toNat / 16 ∧ t.toNat ≤ 15

/-- R182: REVBITS and QUANT4 write RESULT[7:0] and STATUS and nothing else; RESULT[31:8] stays 0. -/
def Obligations.UtilitiesWriteResultAndStatusOnly : Prop :=
  ∀ (i : Instr) (s t : State), (∃ b, i = .revbits b) ∨ (∃ b, i = .quant4 b) → exec i s = .next t →
    (∃ v ok err, t.reg = { s.reg with result := v, lastOk := ok, lastErr := err }) ∧
    (∀ k, 8 ≤ k → (readReg t .result).getLsbD k = false) ∧
    t.fr = s.fr ∧ t.fbMem = s.fbMem ∧ t.srcMem = s.srcMem ∧ t.log = s.log ∧ t.asked = s.asked ∧
    t.phase = s.phase ∧ t.answers = s.answers ∧ t.host = s.host ∧ t.readData = s.readData ∧
    t.inReset = s.inReset ∧ t.nextDraw = s.nextDraw

/-! ### The framer -/

/-- R160, R164: below cursor 7 a PUSH stores one byte of the frame (the data shifted right, the low bits of the data
byte before shifted left, the control bit at bit `7 - c`), keeps the data in prev, advances the cursor, succeeds, and
transmits nothing. -/
def Obligations.PushBelowSevenStoresOneByte : Prop :=
  ∀ (s : State) (cb : Bit) (d : Byte), s.fr.cursor ≠ 7 →
    ∃ fr' : Framer,
      exec (.push cb d) s = .next (State.withStatus { s with fr := fr' } 1 0) ∧
      fr'.cursor.toNat = s.fr.cursor.toNat + 1 ∧ fr'.prev = d ∧
      (∀ k : Nat, k ≠ s.fr.cursor.toNat → fr'.frame[k]? = s.fr.frame[k]?) ∧
      ∃ out : Byte, fr'.frame[s.fr.cursor.toNat]? = some out ∧
        out.toNat = (d.toNat >>> (s.fr.cursor.toNat + 1))
          ||| (if 0 < s.fr.cursor.toNat then (s.fr.prev.toNat <<< (8 - s.fr.cursor.toNat)) % 256 else 0)
          ||| (cb.toNat <<< (7 - s.fr.cursor.toNat))

/-- R160, R162, R169: at cursor 7 a PUSH that is answered completes the frame (the low 7 bits of prev over the control
bit at position 7, the data unmodified at position 8), hands it over as one transaction of nine bytes, logs it with the
answer, restarts the framer whatever the answer, and reports the answer. How State holds the answers is the model's: log
entry 3. -/
def Obligations.PushAtSevenTransmitsTheFrame : Prop :=
  ∀ (s : State) (cb : Bit) (d : Byte) (ok : Bool), s.fr.cursor = 7 →
    s.answerAt 0 = (if ok then .success else .failure) →
    ∃ frame' : Vector Byte 9,
      exec (.push cb d) s = .next
        (State.withStatus
          { s with
            fr := ⟨0, 0, frame'⟩
            log := s.log ++ [⟨frame'.toList, ok⟩]
            answers := s.answers.tail
            asked := s.asked + 1 }
          (if ok then 1 else 0) (if ok then 0 else 5)) ∧
      (∀ k : Nat, k < 7 → frame'[k]? = s.fr.frame[k]?) ∧
      (∃ out : Byte, frame'[7]? = some out ∧ out.toNat = (s.fr.prev.toNat * 2) % 256 ||| cb.toNat) ∧
      frame'[8]? = some d

/-- R166: FLUSH at cursor 0 makes no push and no transmission and succeeds. -/
def Obligations.FlushAtCursorZeroDoesNothing : Prop :=
  ∀ (s : State) (cb : Bit) (noop : Byte), s.fr.cursor = 0 → exec (.flush cb noop) s = .next (s.withStatus 1 0)

/-- R165, R167: from cursor 1..7 a FLUSH whose transmission is answered keeps the bytes already stored, fills the rest
of the frame with the padding word, makes exactly one transmission and reports its answer. -/
def Obligations.FlushPadsAndSendsTheFrame : Prop :=
  ∀ (s : State) (cb : Bit) (noop : Byte) (ok : Bool), s.fr.cursor ≠ 0 →
    s.answerAt 0 = (if ok then .success else .failure) →
    ∃ frame' : Vector Byte 9,
      exec (.flush cb noop) s = .next
        (State.withStatus
          { s with
            fr := ⟨0, 0, frame'⟩
            log := s.log ++ [⟨frame'.toList, ok⟩]
            answers := s.answers.tail
            asked := s.asked + 1 }
          (if ok then 1 else 0) (if ok then 0 else 5)) ∧
      (∀ k : Nat, k < s.fr.cursor.toNat → frame'[k]? = s.fr.frame[k]?) ∧
      frame'[s.fr.cursor.toNat]? = some (framerByte s.fr.cursor.toNat s.fr.prev noop cb) ∧
      (∀ k : Nat, s.fr.cursor.toNat < k → k < 8 → frame'[k]? = some (framerByte k noop noop cb)) ∧
      frame'[8]? = some noop

/-- R165: where its transmission is answered, a FLUSH from cursor `c` in 1..7 is `8 - c` PUSH commands of the padding
word, one after another. -/
def Obligations.FlushIsThePaddingPushes : Prop :=
  ∀ (s : State) (cb : Bit) (noop : Byte), s.fr.cursor ≠ 0 → s.phase = .idle → s.answerAt 0 ≠ .silence →
    exec (.flush cb noop) s = runCommands (List.replicate (8 - s.fr.cursor.toNat) (.push cb noop)) s

/-- R170: from cursor 0, eight PUSH commands make exactly one transmission, of the frame of R161; from cursor 0, `k`
PUSH commands with `1 <= k <= 7` and one FLUSH make exactly one transmission, of the frame whose first `k` words are
the pushed words and whose others are the padding word. That `asked` counts the transmissions, and where the answer
stands in State, are the model's: log entry 3. -/
def Obligations.EightWordsMakeOneFrame : Prop :=
  ∀ (s : State) (ws : List (Bit × Byte)) (ok : Bool), s.fr.cursor = 0 → s.phase = .idle →
    s.answerAt 0 = (if ok then .success else .failure) →
    (ws.length = 8 → ∃ t, runCommands (pushCommands ws) s = .next t ∧ t.log = s.log ++ [⟨packWords ws, ok⟩] ∧
      t.asked = s.asked + 1 ∧ t.fr.cursor = 0 ∧ t.fr.prev = 0) ∧
    (∀ (cb : Bit) (noop : Byte), 1 ≤ ws.length → ws.length ≤ 7 →
      ∃ t, runCommands (pushCommands ws ++ [.flush cb noop]) s = .next t ∧
        t.log = s.log ++ [⟨packWords (ws ++ List.replicate (8 - ws.length) (cb, noop)), ok⟩] ∧
        t.asked = s.asked + 1 ∧ t.fr.cursor = 0 ∧ t.fr.prev = 0)

/-- R163: the nine bytes eight PUSH commands transmit are the 72 bits of their words in push order, the control bit of
each word first and its data most significant bit first, cut into bytes from the most significant end. -/
def Obligations.FrameIsTheBitStreamOfItsWords : Prop :=
  ∀ (s t : State) (ws : List (Bit × Byte)) (ok : Bool), s.fr.cursor = 0 → s.phase = .idle →
    s.answerAt 0 = (if ok then .success else .failure) → ws.length = 8 →
    runCommands (pushCommands ws) s = .next t →
    ∃ bytes : List Byte, t.log = s.log ++ [⟨bytes, ok⟩] ∧ bytes.length = 9 ∧
      ∀ k, k < 72 → (bytes.getD (k / 8) 0).getLsbD (7 - k % 8) = (nineBits (wordAt ws (k / 9))).getLsbD (8 - k % 9)

/-- R51: frame bytes at and above the cursor (in particular the unspecified ones after reset) are never transmitted nor
seen: from two states that differ in them only, one step has the same outcome, and its states differ in them only. This
bears on the model's choice of log entry 6. -/
def Obligations.StaleFrameBytesAreNeverSeen : Prop :=
  ∀ s s' : State, s.agree s' →
    (∀ t, step s = .next t → ∃ t', step s' = .next t' ∧ t.agree t') ∧
    (∀ f, step s = .fault f → step s' = .fault f) ∧ (∀ r, step s = .refused r → step s' = .refused r)

/-- R168: the compositing commands, REVBITS, QUANT4, SENDR and illegal commands neither write the framer state nor
read it, and reset sets it to the values of R59. -/
def Obligations.OtherCommandsLeaveTheFramer : Prop :=
  ∀ (s : State) (f : Framer),
    (∀ i : Instr, (∀ cb d, i ≠ .push cb d) → (∀ cb d, i ≠ .flush cb d) → (∀ cb, i ≠ .sendf cb) →
      ∃ t, exec i s = .next t ∧ t.fr = s.fr ∧ exec i { s with fr := f } = .next { t with fr := f }) ∧
    (∃ t, illegalCommand s = .next t ∧ t.fr = s.fr ∧ illegalCommand { s with fr := f } = .next { t with fr := f }) ∧
    State.reset.fr.cursor = 0 ∧ State.reset.fr.prev = 0 ∧ s.reinitialise.fr.cursor = 0 ∧ s.reinitialise.fr.prev = 0

/-! ### The serialiser -/

/-- R190, R192: SENDR on an accepted geometry, where the transport answers, makes one transaction of the framebuffer's
bytes in rising address order (the low nibbles on the nibble layout), logs it, and reports the answer (log entry 3). -/
def Obligations.SendrSendsTheFramebufferOnce : Prop :=
  ∀ (s : State) (ok : Bool), s.geometryAccepted → s.answerAt 0 = (if ok then .success else .failure) →
    exec .sendr s = .next
      (State.withStatus
        { s with
          log := s.log ++ [⟨s.bytesToSend, ok⟩]
          answers := s.answers.tail
          asked := s.asked + 1 }
        (if ok then 1 else 0) (if ok then 0 else 5)) ∧
    s.bytesToSend ≠ []

/-- R191, R192: SENDF on an accepted geometry, where every frame it completes is answered with success, is the PUSH
commands of the framebuffer's bytes with its control bit; it makes `floor((c0 + fbSize) / 8)` transmissions of nine
bytes, leaves the framer with `(c0 + fbSize) mod 8` words, succeeds, and changes nothing else (`answers` and
`asked` are the model's own: log entry 3). -/
def Obligations.SendfPushesEveryByte : Prop :=
  ∀ (s : State) (cb : Bit), s.geometryAccepted → s.phase = .idle →
    (∀ k, k < (s.fr.cursor.toNat + s.framebufferBytes) / 8 → s.answerAt k = .success) →
    ∃ t, exec (.sendf cb) s = .next t ∧ runCommands (s.bytesToSend.map fun b => .push cb b) s = .next t ∧
      t.fr.cursor.toNat = (s.fr.cursor.toNat + s.framebufferBytes) % 8 ∧
      (∃ sent : List Transaction, t.log = s.log ++ sent ∧
        sent.length = (s.fr.cursor.toNat + s.framebufferBytes) / 8 ∧
        ∀ e ∈ sent, e.ok = true ∧ e.bytes.length = 9) ∧
      t = State.withStatus { s with fr := t.fr, log := t.log, answers := t.answers, asked := t.asked } 1 0

/-- R193: a SENDF whose frame number `j` is the first to be answered with failure stops at once: it is the PUSH commands
of the framebuffer bytes up to the one that completes frame `j` and no more; the frames before stay transmitted, the
failed one is the last entry of the log, the framer is at cursor 0 with prev 0, and STATUS reports TRANSPORT_FAIL. The fields
`answers` and `asked` are the model's own: log entry 3. -/
def Obligations.SendfStopsAtTheFirstFailure : Prop :=
  ∀ (s : State) (cb : Bit) (j : Nat), s.geometryAccepted →
    j < (s.fr.cursor.toNat + s.framebufferBytes) / 8 →
    (∀ k, k < j → s.answerAt k = .success) → s.answerAt j = .failure →
    ∃ t, exec (.sendf cb) s = .next t ∧
      (s.phase = .idle →
        runCommands ((s.bytesToSend.take (8 * (j + 1) - s.fr.cursor.toNat)).map fun b => .push cb b) s = .next t) ∧
      t.fr.cursor = 0 ∧ t.fr.prev = 0 ∧
      (∃ sent : List Transaction, t.log = s.log ++ sent ++ [⟨t.fr.frame.toList, false⟩] ∧ sent.length = j ∧
        (∀ e ∈ sent, e.ok = true ∧ e.bytes.length = 9) ∧ t.asked = s.asked + j + 1) ∧
      t = State.withStatus { s with fr := t.fr, log := t.log, answers := t.answers, asked := t.asked } 0 5

/-- R190, R191, R131: SENDR and SENDF on a refused geometry report FB_CONFIG, make no transaction and leave the framer
and everything else as it was. -/
def Obligations.SendsRefuseABadGeometry : Prop :=
  ∀ (s : State) (cb : Bit), ¬ s.geometryAccepted →
    exec .sendr s = .next (s.withStatus 0 2) ∧ exec (.sendf cb) s = .next (s.withStatus 0 2)

/-! ### The compositor -/

/-- R130 to R133, R139, R203: a compositing command whose geometry, depth or source range is refused reports the first
of FB_CONFIG, DEPTH_UNSUPPORTED and SRC_RANGE that applies, and nothing but STATUS changes. -/
def Obligations.CompositeRefusalsInOrder : Prop :=
  ∀ (i : Instr) (s : State), i = .compx ∨ i = .compw ∨ i = .compl →
    (¬ s.geometryAccepted → exec i s = .next (s.withStatus 0 2)) ∧
    (s.geometryAccepted → ¬ s.depthAccepted → exec i s = .next (s.withStatus 0 3)) ∧
    (s.geometryAccepted → s.depthAccepted → ¬ s.rangeAccepted → exec i s = .next (s.withStatus 0 4))

/-- R140, R136 to R139: COMPX, its checks passed, succeeds; where the source is set every pixel or channel is XORed
with the colour, where it is unset it is left, and nothing outside the framebuffer changes. -/
def Obligations.CompxBlendsEveryPixel : Prop :=
  ∀ s : State, s.compositeAccepted →
    ∃ t : State, exec .compx s = .next (t.withStatus 1 0) ∧ t.paintedFrom s ∧
      (s.reg.fbLayout = 0 → ∀ x y, x < s.reg.fbW.toNat → y < s.reg.fbH.toNat →
        t.pagePixel x y = match s.sample x y with
          | some _ => s.pagePixel x y ^^^ s.reg.fg.mono
          | none => s.pagePixel x y) ∧
      (s.reg.fbLayout = 1 → ∀ x y ch, x < s.reg.fbW.toNat → y < s.reg.fbH.toNat → ch < 3 →
        t.channelByte x y ch = match s.sample x y with
          | some col => s.channelByte x y ch ^^^ col.channelByte ch
          | none => s.channelByte x y ch)

/-- R141, R136 to R139: COMPW, its checks passed, succeeds; where the source is set every pixel or channel becomes the
colour, where it is unset for any reason it becomes the background, and nothing outside the framebuffer changes. -/
def Obligations.CompwRepaintsEveryPixel : Prop :=
  ∀ s : State, s.compositeAccepted →
    ∃ t : State, exec .compw s = .next (t.withStatus 1 0) ∧ t.paintedFrom s ∧
      (s.reg.fbLayout = 0 → ∀ x y, x < s.reg.fbW.toNat → y < s.reg.fbH.toNat →
        t.pagePixel x y = match s.sample x y with
          | some _ => s.reg.fg.mono
          | none => s.reg.bg.mono) ∧
      (s.reg.fbLayout = 1 → ∀ x y ch, x < s.reg.fbW.toNat → y < s.reg.fbH.toNat → ch < 3 →
        t.channelByte x y ch = match s.sample x y with
          | some col => col.channelByte ch
          | none => s.reg.bg.rgb.channelByte ch)

/-- R142, R136 to R139: COMPL, its checks passed, succeeds; where the source is set every pixel or channel becomes the
colour, where it is unset it is left, and nothing outside the framebuffer changes. -/
def Obligations.ComplPaintsSetPixels : Prop :=
  ∀ s : State, s.compositeAccepted →
    ∃ t : State, exec .compl s = .next (t.withStatus 1 0) ∧ t.paintedFrom s ∧
      (s.reg.fbLayout = 0 → ∀ x y, x < s.reg.fbW.toNat → y < s.reg.fbH.toNat →
        t.pagePixel x y = match s.sample x y with
          | some _ => s.reg.fg.mono
          | none => s.pagePixel x y) ∧
      (s.reg.fbLayout = 1 → ∀ x y ch, x < s.reg.fbW.toNat → y < s.reg.fbH.toNat → ch < 3 →
        t.channelByte x y ch = match s.sample x y with
          | some col => col.channelByte ch
          | none => s.channelByte x y ch)

/-- R134, R135 with R74, R75: the source is unset at a destination pixel whose source coordinate `(x - XOFF, y - YOFF)`
is out of bounds; in bounds a depth-1 source is set exactly where its packed bit is 1 and supplies FG, and a depth-32
source is set and supplies its red, green and blue bytes divided by 16. -/
def Obligations.SampleFollowsTheSource : Prop :=
  ∀ (s : State) (x y : Nat),
    (¬ (0 ≤ (x : Int) - s.reg.xoff.toInt ∧ (x : Int) - s.reg.xoff.toInt < s.reg.srcW.toNat ∧
        0 ≤ (y : Int) - s.reg.yoff.toInt ∧ (y : Int) - s.reg.yoff.toInt < s.reg.srcH.toNat) → s.sample x y = none) ∧
    (∀ sx sy : Nat, (x : Int) - s.reg.xoff.toInt = sx → (y : Int) - s.reg.yoff.toInt = sy →
      sx < s.reg.srcW.toNat → sy < s.reg.srcH.toNat →
      (s.reg.srcDepth = 1 →
        s.sample x y =
          if (s.srcMem.read (s.reg.srcBase.toNat + sy * ((s.reg.srcW.toNat + 7) / 8) + sx / 8)).getLsbD (sx % 8)
          then some ⟨s.reg.fg.r, s.reg.fg.g, s.reg.fg.b⟩ else none) ∧
      (s.reg.srcDepth = 32 → ∃ col : Rgb, s.sample x y = some col ∧
        col.r.toNat = (s.srcMem.read (s.reg.srcBase.toNat + sy * (s.reg.srcW.toNat * 4) + sx * 4)).toNat / 16 ∧
        col.g.toNat = (s.srcMem.read (s.reg.srcBase.toNat + sy * (s.reg.srcW.toNat * 4) + sx * 4 + 1)).toNat / 16 ∧
        col.b.toNat = (s.srcMem.read (s.reg.srcBase.toNat + sy * (s.reg.srcW.toNat * 4) + sx * 4 + 2)).toNat / 16))

/-- R143 (a): COMPW with a source that is unset everywhere sets every destination pixel to BG. -/
def Obligations.OverwriteOfAnUnsetSourceFillsBackground : Prop :=
  ∀ s : State, s.compositeAccepted → s.sourceUnset →
    ∃ t, exec .compw s = .next t ∧
      (s.reg.fbLayout = 0 → ∀ x y, x < s.reg.fbW.toNat → y < s.reg.fbH.toNat → t.pagePixel x y = s.reg.bg.mono) ∧
      (s.reg.fbLayout = 1 → ∀ x y, x < s.reg.fbW.toNat → y < s.reg.fbH.toNat →
        t.channelByte x y 0 = s.reg.bg.r.setWidth 8 ∧ t.channelByte x y 1 = s.reg.bg.g.setWidth 8 ∧
        t.channelByte x y 2 = s.reg.bg.b.setWidth 8)

/-- R143 (b): COMPL with a source that is unset everywhere leaves every byte of FBMEM unchanged. -/
def Obligations.OverlayOfAnUnsetSourceChangesNothing : Prop :=
  ∀ s : State, s.compositeAccepted → s.sourceUnset →
    ∃ t, exec .compl s = .next t ∧ ∀ a, t.fbMem.read a = s.fbMem.read a

/-- R143 (c): COMPX applied twice with unchanged registers and SRCMEM leaves every byte of FBMEM as it was. -/
def Obligations.ExclusiveTwiceRestoresTheFramebuffer : Prop :=
  ∀ s : State, s.compositeAccepted →
    ∃ t u, exec .compx s = .next t ∧ exec .compx t = .next u ∧ ∀ a, u.fbMem.read a = s.fbMem.read a

/-- R143 (d): COMPL and COMPW agree on every pixel where the source is set; COMPL and COMPX agree, leaving it
unchanged, on every pixel where the source is unset. -/
def Obligations.BlendModesAgreeWhereTheyShould : Prop :=
  ∀ s : State, s.compositeAccepted →
    ∃ tx tw tl, exec .compx s = .next tx ∧ exec .compw s = .next tw ∧ exec .compl s = .next tl ∧
      ∀ x y, x < s.reg.fbW.toNat → y < s.reg.fbH.toNat →
        (s.reg.fbLayout = 0 →
          (s.sample x y ≠ none → tl.pagePixel x y = tw.pagePixel x y) ∧
          (s.sample x y = none → tl.pagePixel x y = s.pagePixel x y ∧ tx.pagePixel x y = s.pagePixel x y)) ∧
        (s.reg.fbLayout = 1 → ∀ ch, ch < 3 →
          (s.sample x y ≠ none → tl.channelByte x y ch = tw.channelByte x y ch) ∧
          (s.sample x y = none →
            tl.channelByte x y ch = s.channelByte x y ch ∧ tx.channelByte x y ch = s.channelByte x y ch))

/-- R109: the pseudo-instruction FILLBG, its five host accesses run one after another, paints every destination pixel
with BG on either layout, leaves SRC_BASE, SRC_W and SRC_H at 0 and SRC_DEPTH at 1, succeeds, and changes nothing else.
That the accesses stand in a list of State is the model's: log entry 1. -/
def Obligations.FillbgPaintsTheBackground : Prop :=
  ∀ (s : State) (evs rest : List HostEvent), assemble .fillbg = some evs → s.host = evs ++ rest → s.inReset = false →
    s.phase = .idle → s.geometryAccepted →
    ∃ t, runSteps 5 s = .next t ∧
      t = { s with
        host := rest, readData := none, fbMem := t.fbMem
        reg := { s.reg with srcBase := 0, srcW := 0, srcH := 0, srcDepth := 1, lastOk := 1, lastErr := 0 } } ∧
      (∀ a, s.framebufferBytes ≤ a → t.fbMem.read a = s.fbMem.read a) ∧
      (s.reg.fbLayout = 0 → ∀ x y, x < s.reg.fbW.toNat → y < s.reg.fbH.toNat → t.pagePixel x y = s.reg.bg.mono) ∧
      (s.reg.fbLayout = 1 → ∀ x y ch, x < s.reg.fbW.toNat → y < s.reg.fbH.toNat → ch < 3 →
        t.channelByte x y ch = s.reg.bg.rgb.channelByte ch)

/-- R109: the host accesses of SETFB, SETSRC, SETOFF, SETFG and SETBG, run one after another, leave in the registers the
operands as they were written (SETOFF's signed), and change nothing else. Operands out of range are an assembly error (R108; the
ranges of SETFB, SETSRC, SETFG and SETBG are the model's, log entry 12; the list of host accesses is log entry 1). -/
def Obligations.PseudoInstructionsFillTheirFields : Prop :=
  ∀ (s : State) (evs rest : List HostEvent), s.host = evs ++ rest → s.inReset = false → s.phase = .idle →
    (∀ layout w h, assemble (.setfb layout w h) = some evs →
      ∃ t, runSteps 3 s = .next t ∧ t.reg.fbLayout.toNat = layout ∧ t.reg.fbW.toNat = w ∧ t.reg.fbH.toNat = h ∧
        t = { s with
          host := rest, readData := none
          reg := { s.reg with fbLayout := t.reg.fbLayout, fbW := t.reg.fbW, fbH := t.reg.fbH } }) ∧
    (∀ base w h depth, assemble (.setsrc base w h depth) = some evs →
      ∃ t, runSteps 4 s = .next t ∧ t.reg.srcBase.toNat = base ∧ t.reg.srcW.toNat = w ∧ t.reg.srcH.toNat = h ∧
        t.reg.srcDepth.toNat = depth ∧
        t = { s with
          host := rest, readData := none
          reg := { s.reg with
            srcBase := t.reg.srcBase, srcW := t.reg.srcW, srcH := t.reg.srcH, srcDepth := t.reg.srcDepth } }) ∧
    (∀ x y, assemble (.setoff x y) = some evs →
      ∃ t, runSteps 2 s = .next t ∧ t.reg.xoff.toInt = x ∧ t.reg.yoff.toInt = y ∧
        t = { s with host := rest, readData := none, reg := { s.reg with xoff := t.reg.xoff, yoff := t.reg.yoff } }) ∧
    (∀ mono r g b, assemble (.setfg mono r g b) = some evs →
      ∃ t, runSteps 1 s = .next t ∧ t.reg.fg.mono.toNat = mono ∧ t.reg.fg.r.toNat = r ∧
        t.reg.fg.g.toNat = g ∧ t.reg.fg.b.toNat = b ∧
        t = { s with host := rest, readData := none, reg := { s.reg with fg := t.reg.fg } }) ∧
    (∀ mono r g b, assemble (.setbg mono r g b) = some evs →
      ∃ t, runSteps 1 s = .next t ∧ t.reg.bg.mono.toNat = mono ∧ t.reg.bg.r.toNat = r ∧
        t.reg.bg.g.toNat = g ∧ t.reg.bg.b.toNat = b ∧
        t = { s with host := rest, readData := none, reg := { s.reg with bg := t.reg.bg } })

/-! ### Registers and host accesses -/

/-- R32, R33: a RW register, at its offset of R32, reads back the field bits of what the host last wrote to it, its other
bits 0, and holds them under its own name; no other register changes, and the write
changes no read-only field, no memory and no framer state. That the value returned stands in `readData` is the model's:
log entry 9. -/
def Obligations.WrittenRegistersReadBack : Prop :=
  ∀ (s : State) (n : RegName) (offset : Nat) (mask v : Word) (rest : List HostEvent),
    (n, offset, mask) ∈ readWriteRegs →
    s.host = .access ⟨.reg, offset, 4, .write v⟩ :: .access ⟨.reg, offset, 4, .read⟩ :: rest →
    s.inReset = false → s.phase = .idle →
    ∃ t u, step s = .next t ∧ step t = .next u ∧ u.readData = some (v &&& mask) ∧ readReg t n = v &&& mask ∧
      t = { s with host := t.host, readData := none, reg := t.reg } ∧
      t.reg.lastOk = s.reg.lastOk ∧ t.reg.lastErr = s.reg.lastErr ∧ t.reg.result = s.reg.result ∧
      (∀ m : RegName, m ≠ n → readReg t m = readReg s m)

/-- R82, R32, R33, R71: an admitted read of any space is free of side effects: it returns a value to the host and changes
nothing else; each register reads its fields at the offset R32 gives it, a reserved REG offset and CMD read 0 (log entries 9 and 16). -/
def Obligations.ReadsHaveNoSideEffects : Prop :=
  ∀ (s : State) (sp : Space) (addr bytes : Nat) (rest : List HostEvent),
    s.host = .access ⟨sp, addr, bytes, .read⟩ :: rest → s.inReset = false → s.phase = .idle →
    (sp = .reg → bytes = 4 → addr % 4 = 0 → addr < 256 →
      ∃ v, step s = .next { s with host := rest, readData := some v } ∧
        (∀ n : RegName, regOffset n = addr → v = readReg s n) ∧ (addr = 0x00 ∨ 0x3C ≤ addr → v = 0) ∧
        (addr = 0x04 → v = readReg s .status) ∧ (addr = 0x08 → v = readReg s .result) ∧
        (addr = 0x0C → v = readReg s .framer) ∧
        (addr = 0x10 → v = s.reg.fbLayout.setWidth 32) ∧
        (addr = 0x14 → v = s.reg.fbW.setWidth 32) ∧ (addr = 0x18 → v = s.reg.fbH.setWidth 32) ∧
        (addr = 0x1C → v = s.reg.srcBase) ∧
        (addr = 0x20 → v = s.reg.srcW.setWidth 32) ∧ (addr = 0x24 → v = s.reg.srcH.setWidth 32) ∧
        (addr = 0x28 → v = s.reg.srcDepth.setWidth 32) ∧
        (addr = 0x2C → v = s.reg.xoff.setWidth 32) ∧ (addr = 0x30 → v = s.reg.yoff.setWidth 32) ∧
        (addr = 0x34 → v = (0 : BitVec 15) ++ s.reg.fg.mono ++ (0 : BitVec 4) ++ s.reg.fg.r ++ s.reg.fg.g ++ s.reg.fg.b) ∧
        (addr = 0x38 → v = (0 : BitVec 15) ++ s.reg.bg.mono ++ (0 : BitVec 4) ++ s.reg.bg.r ++ s.reg.bg.g ++ s.reg.bg.b)) ∧
    (sp = .fbMem → bytes = 1 → addr < s.fbMem.size →
      step s = .next { s with host := rest, readData := some ((s.fbMem.read addr).setWidth 32) }) ∧
    (sp = .srcMem → bytes = 1 → addr < s.srcMem.size →
      step s = .next { s with host := rest, readData := some ((s.srcMem.read addr).setWidth 32) })

/-- R32, R33, R71: a host write to a read-only register or to a reserved offset is ignored. -/
def Obligations.ReadOnlyWritesAreIgnored : Prop :=
  ∀ (s : State) (addr : Nat) (v : Word) (rest : List HostEvent),
    s.host = .access ⟨.reg, addr, 4, .write v⟩ :: rest → s.inReset = false → s.phase = .idle →
    addr = 4 ∨ addr = 8 ∨ addr = 12 ∨ (0x3C ≤ addr ∧ addr < 256 ∧ addr % 4 = 0) →
    step s = .next { s with host := rest, readData := none }

/-- R37: FRAMER, at offset 0x0C, reads CURSOR in bits [2:0], PREV in bits [15:8] and 0 elsewhere; a write to it stores
nothing; and what a host read of any space returns does not depend on the frame bytes. -/
def Obligations.FramerRegisterShowsCursorAndPrev : Prop :=
  ∀ s : State,
    (∀ k, (readReg s .framer).getLsbD k =
      if k < 3 then s.fr.cursor.getLsbD k
      else if 8 ≤ k ∧ k < 16 then s.fr.prev.getLsbD (k - 8) else false) ∧
    (∀ (a : Access) (frame' : Vector Byte 9),
      accessRead { s with fr := { s.fr with frame := frame' } } a = accessRead s a) ∧
    regAt 0x0C = some .framer ∧ ∀ v : Word, writeReg s.reg v .framer = s.reg

/-- R35, R36: STATUS reads LAST_OK in bit 0, LAST_ERR in bits [7:4] and 0 elsewhere; RESULT reads its byte in bits
[7:0] and 0 elsewhere. -/
def Obligations.StatusAndResultReadTheirFields : Prop :=
  ∀ s : State,
    (∀ k, (readReg s .status).getLsbD k =
      if k = 0 then s.reg.lastOk.getLsbD 0
      else if 4 ≤ k ∧ k < 8 then s.reg.lastErr.getLsbD (k - 4) else false) ∧
    (∀ k, (readReg s .result).getLsbD k = if k < 8 then s.reg.result.getLsbD k else false)

/-- R76, R86: an admitted host write of a byte of FBMEM or SRCMEM is what the next read of it returns, and every other
byte of both memories, and all else, is unchanged. -/
def Obligations.HostMemoryWritesAreRead : Prop :=
  ∀ (s : State) (addr : Nat) (v : Word) (rest : List HostEvent), s.inReset = false → s.phase = .idle →
    (s.host = .access ⟨.fbMem, addr, 1, .write v⟩ :: rest → addr < s.fbMem.size →
      ∃ m, step s = .next { s with host := rest, readData := none, fbMem := m } ∧ m.size = s.fbMem.size ∧
        m.read addr = v.setWidth 8 ∧ ∀ b, b ≠ addr → m.read b = s.fbMem.read b) ∧
    (s.host = .access ⟨.srcMem, addr, 1, .write v⟩ :: rest → addr < s.srcMem.size →
      ∃ m, step s = .next { s with host := rest, readData := none, srcMem := m } ∧ m.size = s.srcMem.size ∧
        m.read addr = v.setWidth 8 ∧ ∀ b, b ≠ addr → m.read b = s.srcMem.read b)

/-- R81, R216: a REG access not 32 bits wide, misaligned or past the 256 bytes, and a memory access of another width
than one byte or at an address past the memory, ends with a bus error, the fault of log entry 17. -/
def Obligations.BadAccessesEndWithABusError : Prop :=
  ∀ (s : State) (a : Access) (rest : List HostEvent), s.host = .access a :: rest → s.phase = .idle →
    (a.space = .reg ∧ (a.bytes ≠ 4 ∨ a.addr % 4 ≠ 0 ∨ 256 ≤ a.addr)) ∨
    (a.space = .fbMem ∧ (a.bytes ≠ 1 ∨ s.fbMem.size ≤ a.addr)) ∨
    (a.space = .srcMem ∧ (a.bytes ≠ 1 ∨ s.srcMem.size ≤ a.addr)) →
    step s = .fault .busError

/-! ### Waiting and reset -/

/-- R236: PUSH at cursor 7, FLUSH from cursor 1..7, SENDR, and SENDF at any frame it completes, never complete if the
transport never answers that transaction: no STATUS is written, the frames a SENDF had answered before stay logged, and the run is kept as stuck, every further host access left unserviced,
until reset ends it. How State shows the wait is the model's: log entries 4 and 10. -/
def Obligations.SilenceBlocksUntilReset : Prop :=
  (∀ (s : State) (i : Instr), s.answerAt 0 = .silence →
    ((∃ cb d, i = .push cb d) ∧ s.fr.cursor = 7) ∨ ((∃ cb d, i = .flush cb d) ∧ s.fr.cursor ≠ 0) ∨
    (i = .sendr ∧ s.geometryAccepted) ∨
    ((∃ cb, i = .sendf cb) ∧ s.geometryAccepted ∧ 8 ≤ s.fr.cursor.toNat + s.framebufferBytes) →
    ∃ t bytes, exec i s = .next t ∧ t.phase = .waiting bytes ∧ t.reg = s.reg ∧ t.log = s.log) ∧
  (∀ (s : State) (cb : Bit) (j : Nat), s.geometryAccepted → j < (s.fr.cursor.toNat + s.framebufferBytes) / 8 →
    (∀ k, k < j → s.answerAt k = .success) → s.answerAt j = .silence →
    ∃ t, exec (.sendf cb) s = .next t ∧ t.phase = .waiting t.fr.frame.toList ∧ t.reg = s.reg ∧
      ∃ sent : List Transaction, t.log = s.log ++ sent ∧ sent.length = j ∧ ∀ e ∈ sent, e.ok = true ∧ e.bytes.length = 9) ∧
  (∀ (s : State), s.phase ≠ .idle → s.inReset = false →
    (∀ rest, s.host ≠ .resetAssert :: rest ∧ s.host ≠ .resetRelease :: rest) → step s = .next s) ∧
  (∀ (s : State) (rest : List HostEvent), s.host = .resetAssert :: rest →
    ∃ t, step s = .next t ∧ t.phase = .idle ∧ t.inReset = true ∧ t.log = s.log)

/-- R230, R59: while reset is asserted every host access is refused, and when it is released every piece of state holds
its reset value and the engine is idle: FBMEM is drawn anew, SRCMEM is not touched, and a command that needs a
framebuffer then fails with FB_CONFIG. The free value of the new contents is the model's: log entry 5. -/
def Obligations.ResetRefusesAccessesAndRestoresState : Prop :=
  (∀ (s : State) (a : Access) (rest : List HostEvent), s.inReset = true → s.host = .access a :: rest →
    step s = .fault .busError) ∧
  (∀ (s : State) (rest : List HostEvent), s.inReset = true → s.host = .resetRelease :: rest →
    ∃ t, step s = .next t ∧ readReg t .status = 1 ∧ readReg t .result = 0 ∧ readReg t .framer = 0 ∧
      readReg t .fbLayout = 0 ∧ readReg t .fbW = 0 ∧ readReg t .fbH = 0 ∧ readReg t .srcBase = 0 ∧
      readReg t .srcW = 0 ∧ readReg t .srcH = 0 ∧ readReg t .srcDepth = 0 ∧ readReg t .xoff = 0 ∧
      readReg t .yoff = 0 ∧ readReg t .fg = 0x00010FFF ∧ readReg t .bg = 0 ∧
      t.fr.cursor = 0 ∧ t.fr.prev = 0 ∧ t.log = [] ∧ t.phase = .idle ∧ t.inReset = false ∧ t.host = rest ∧
      t.fbMem.size = s.fbMem.size ∧ (∀ a, t.fbMem.read a = Config.powerOnByte s.nextDraw a) ∧ t.srcMem = s.srcMem ∧
      (∀ i : Instr, i = .compx ∨ i = .compw ∨ i = .compl ∨ i = .sendr ∨ (∃ cb, i = .sendf cb) →
        exec i t = .next (t.withStatus 0 2)))

/-- R231: reset asserted during a command abandons it: after the release the log holds no transaction of it, SRCMEM is
as before, and the registers and the framer hold their reset values. The event of a cut command is the model's: log
entry 7. -/
def Obligations.ResetDuringACommandAbandonsIt : Prop :=
  ∀ (s : State) (w : Word) (rest : List HostEvent), s.inReset = false → s.phase = .idle →
    s.host = .commandCutByReset w :: .resetRelease :: rest →
    ∃ t u, step s = .next t ∧ t.inReset = true ∧ step t = .next u ∧ u.inReset = false ∧ u.phase = .idle ∧
      u.log = [] ∧ u.reg = Regs.reset ∧ u.fr.cursor = 0 ∧ u.fr.prev = 0 ∧ u.srcMem = s.srcMem ∧ u.host = rest

/-- R59, R32: what the host reads right after reset, and the rest of the state the rule gives a value. -/
def Obligations.ResetStateIsTheSpecs : Prop :=
  readReg State.reset .status = 1 ∧ readReg State.reset .result = 0 ∧ readReg State.reset .framer = 0 ∧
  readReg State.reset .fbLayout = 0 ∧ readReg State.reset .fbW = 0 ∧ readReg State.reset .fbH = 0 ∧
  readReg State.reset .srcBase = 0 ∧ readReg State.reset .srcW = 0 ∧ readReg State.reset .srcH = 0 ∧
  readReg State.reset .srcDepth = 0 ∧ readReg State.reset .xoff = 0 ∧ readReg State.reset .yoff = 0 ∧
  readReg State.reset .fg = 0x00010FFF ∧ readReg State.reset .bg = 0 ∧
  State.reset.fr.cursor = 0 ∧ State.reset.fr.prev = 0 ∧ State.reset.log = []

/-! ### All commands, all steps -/

/-- R33, R36, R53 to R55, R72, R73, R139: what no command changes: the RW registers, SRCMEM, the sizes of the memories,
the reset line and the host's side; RESULT but by REVBITS and QUANT4; FBMEM but by the compositing commands. -/
def Obligations.CommandsKeepTheirFrame : Prop :=
  ∀ (i : Instr) (s t : State), exec i s = .next t →
    (∃ ok err v, t.reg = { s.reg with lastOk := ok, lastErr := err, result := v }) ∧
    ((∀ b, i ≠ .revbits b) → (∀ b, i ≠ .quant4 b) → t.reg.result = s.reg.result) ∧
    (i ≠ .compx → i ≠ .compw → i ≠ .compl → t.fbMem = s.fbMem) ∧
    t.fbMem.size = s.fbMem.size ∧ t.fbMem.draw = s.fbMem.draw ∧ t.srcMem = s.srcMem ∧ t.inReset = s.inReset ∧
    t.host = s.host ∧ t.readData = s.readData ∧ t.nextDraw = s.nextDraw

/-- R35, R201: every command that ends, an illegal one included, leaves LAST_OK = 1 exactly when LAST_ERR = 0, and no
reserved code; a command that waits has not written STATUS. -/
def Obligations.EveryEndedCommandLeavesALegalStatus : Prop :=
  ∀ (w : Word) (s t : State), s.phase = .idle → runWord w s = .next t →
    (t.phase = .idle → (t.reg.lastOk = 1 ↔ t.reg.lastErr = 0) ∧ t.reg.lastErr.toNat ≤ 5) ∧
    (t.phase ≠ .idle → t.reg = s.reg)

/-- R202: which command raises which code, and what it leaves behind besides STATUS. -/
def Obligations.ErrorCodesOfEachCommand : Prop :=
  ∀ (s t : State), s.phase = .idle → t.phase = .idle →
    (∀ w why, decode w = .illegal why → runWord w s = .next t → t = s.withStatus 0 1) ∧
    (∀ i, i = .compx ∨ i = .compw ∨ i = .compl → exec i s = .next t →
      t.reg.lastErr = 0 ∨ t = s.withStatus 0 2 ∨ t = s.withStatus 0 3 ∨ t = s.withStatus 0 4) ∧
    (∀ i, (∃ cb d, i = .push cb d) ∨ (∃ cb d, i = .flush cb d) → exec i s = .next t →
      t.reg.lastErr = 0 ∨ (t.reg.lastErr = 5 ∧ t.fr.cursor = 0 ∧ t.fr.prev = 0 ∧
        t.log = s.log ++ [⟨t.fr.frame.toList, false⟩] ∧
        t = State.withStatus { s with fr := t.fr, log := t.log, answers := t.answers, asked := t.asked } 0 5)) ∧
    (exec .sendr s = .next t →
      t.reg.lastErr = 0 ∨ t = s.withStatus 0 2 ∨
      (t.reg.lastErr = 5 ∧ t.log = s.log ++ [⟨s.bytesToSend, false⟩] ∧
        t = State.withStatus { s with log := t.log, answers := t.answers, asked := t.asked } 0 5)) ∧
    (∀ cb, exec (.sendf cb) s = .next t →
      t.reg.lastErr = 0 ∨ t = s.withStatus 0 2 ∨
      (t.reg.lastErr = 5 ∧ t.fr.cursor = 0 ∧ t.fr.prev = 0 ∧
        (∃ sent, t.log = s.log ++ sent ++ [⟨t.fr.frame.toList, false⟩] ∧ ∀ e ∈ sent, e.ok = true) ∧
        t = State.withStatus { s with fr := t.fr, log := t.log, answers := t.answers, asked := t.asked } 0 5)) ∧
    (∀ i, (∃ b, i = .revbits b) ∨ (∃ b, i = .quant4 b) → exec i s = .next t → t.reg.lastErr = 0)

/-- R56, R206: a command only appends to the transport log, one entry for each transaction that was answered; a
transaction in progress is not in it (`asked` is the model's own: log entry 3). -/
def Obligations.TheLogOnlyGrows : Prop :=
  ∀ (i : Instr) (s t : State), s.phase = .idle → exec i s = .next t →
    ∃ sent, t.log = s.log ++ sent ∧
      t.asked = s.asked + sent.length + (if t.phase = .idle then 0 else 1)

/-- Every step keeps the invariant `State.Inv`: the memories stay in canonical form and of a legal size (R9, R72, R73),
STATUS stays legal (R35, R201), prev is 0 at the start of a frame (R50, R52), and no transaction is empty. That the
draw numbers stay apart is of the model's own making (log entry 5). -/
def Obligations.EveryStepKeepsTheInvariant : Prop := ∀ s t : State, s.Inv → step s = .next t → t.Inv

/-- The state after reset meets the invariant. -/
def Obligations.ResetMeetsTheInvariant : Prop := State.reset.Inv

/-- R9, R72, R73: no step changes FB_MEM_BYTES or SRC_MEM_BYTES, which the model holds in State: log entry 2. -/
def Obligations.MemorySizesNeverChange : Prop :=
  ∀ s t : State, step s = .next t → t.fbMem.size = s.fbMem.size ∧ t.srcMem.size = s.srcMem.size

/-! ### A pseudo-instruction of commands -/

/-- R109: the host accesses of PUSHSEQ cb, d1, ..., dn, run one after another, are the PUSH commands of its operands in
that order, none of them truncated. Where a PUSH waits for the transport the accesses after it stay unserviced (R83). The
list of host accesses is log entry 1; that `n` may be 0, with nothing to run, is the model's choice: log entry 12. -/
def Obligations.PushseqIsItsPushes : Prop :=
  ∀ (s : State) (cb : Nat) (ds : List Nat) (evs rest : List HostEvent), assemble (.pushseq cb ds) = some evs →
    s.host = evs ++ rest → s.inReset = false → s.phase = .idle →
    cb < 2 ∧ (∀ d ∈ ds, d < 256) ∧ evs.length = ds.length ∧
    ∃ t left, runCommands (ds.map fun d => .push (BitVec.ofNat 1 cb) (BitVec.ofNat 8 d)) s = .next t ∧
      left <:+ evs ∧ (t.phase = .idle → left = []) ∧
      runSteps ds.length s =
        .next { t with host := left ++ rest, readData := if ds.isEmpty then s.readData else none }
end

