-- ==== Sys2Proof/Laws/Bits.lean ====
section
/-! SUPPORT. The laws of the bit primitives and of the loop `forUpto`. -/

namespace Sys2Proof.Machine

theorem bitAt_eq_ofBool (v : Byte) (k : Nat) : bitAt v k = BitVec.ofBool (v.getLsbD k) := by
  apply BitVec.eq_of_getLsbD_eq
  intro i hi
  have : i = 0 := by omega
  subst this
  simp [bitAt]

theorem bitAt_eq_one_iff (v : Byte) (k : Nat) : bitAt v k = 1 ↔ v.getLsbD k = true := by
  rw [bitAt_eq_ofBool]
  cases v.getLsbD k <;> decide

/-- R11: `setbit` replaces bit `k` and no other bit. -/
theorem getLsbD_setBit (v : Byte) (k j : Nat) (b : Bit) (hk : k < 8) :
    (setBit v k b).getLsbD j = if j = k then b.getLsbD 0 else v.getLsbD j := by
  by_cases hj : j < 8
  · by_cases h : j = k
    · subst h
      simp [setBit, hj]
    · simp only [setBit, BitVec.getLsbD_or, BitVec.getLsbD_and, BitVec.getLsbD_not, BitVec.getLsbD_shiftLeft,
        BitVec.getLsbD_setWidth, hj, h, if_false]
      by_cases hlt : j < k
      · simp [hlt]
      · have h1 : j - k ≠ 0 := by omega
        have h2 : b.getLsbD (j - k) = false := BitVec.getLsbD_of_ge _ _ (by omega)
        have h3 : (1#8).getLsbD (j - k) = false := by simp [BitVec.getLsbD_one]; omega
        simp [h2, h3, hlt]
  · have h1 : (setBit v k b).getLsbD j = false := BitVec.getLsbD_of_ge _ _ (by omega)
    have h2 : v.getLsbD j = false := BitVec.getLsbD_of_ge _ _ (by omega)
    have h3 : j ≠ k := by omega
    simp [h1, h2, h3]

theorem bitAt_setBit_same (v : Byte) (k : Nat) (b : Bit) (hk : k < 8) : bitAt (setBit v k b) k = b := by
  rw [bitAt_eq_ofBool, getLsbD_setBit _ _ _ _ hk]
  revert b
  decide +revert

theorem bitAt_setBit_other (v : Byte) {k j : Nat} (b : Bit) (hk : k < 8) (h : j ≠ k) :
    bitAt (setBit v k b) j = bitAt v j := by
  rw [bitAt_eq_ofBool, bitAt_eq_ofBool, getLsbD_setBit _ _ _ _ hk, if_neg h]

/-- The bits of the byte a push at cursor `c` stores: below the control bit the high bits of the data, above it the
low bits of the data byte before (R160, R164). -/
theorem getLsbD_framerByte (c j : Nat) (prev d : Byte) (cb : Bit) (hc : c < 8) (hj : j < 8) :
    (framerByte c prev d cb).getLsbD j =
      if j = 7 - c then cb.getLsbD 0
      else if j < 7 - c then d.getLsbD (j + c + 1)
      else prev.getLsbD (j - (8 - c)) := by
  unfold framerByte
  rw [getLsbD_setBit _ _ _ _ (by omega)]
  split
  · rfl
  · by_cases h0 : 0 < c
    · simp only [h0, if_true, BitVec.getLsbD_or, BitVec.getLsbD_ushiftRight, BitVec.getLsbD_shiftLeft]
      by_cases hlt : j < 7 - c
      · have : j < 8 - c := by omega
        simp [hlt, this, show c + 1 + j = j + c + 1 by omega]
      · have h1 : ¬ j < 8 - c := by omega
        have h2 : d.getLsbD (c + 1 + j) = false := BitVec.getLsbD_of_ge _ _ (by omega)
        simp [hlt, h1, h2, hj]
    · have : c = 0 := by omega
      subst this
      have : j < 7 := by omega
      simp [this, show 1 + j = j + 1 by omega]

/-- R169, R168: equal bytes below the cursor's own data depend on the data and control bit alone at cursor 0. -/
theorem framerByte_zero (p q d : Byte) (cb : Bit) : framerByte 0 p d cb = framerByte 0 q d cb := by
  simp [framerByte]

/-- R161: the byte a push stores is the closed form of the frame at its position. -/
theorem framerByte_eq_closed (c : Nat) (prev d : Byte) (cb : Bit) (hc : c < 8) (h0 : 0 < c) :
    framerByte c prev d cb = (prev <<< (8 - c)) ||| (cb.setWidth 8 <<< (7 - c)) ||| (d >>> (c + 1)) := by
  apply BitVec.eq_of_getLsbD_eq
  intro j hj
  rw [getLsbD_framerByte _ _ _ _ _ hc hj]
  simp only [BitVec.getLsbD_or, BitVec.getLsbD_ushiftRight, BitVec.getLsbD_shiftLeft, BitVec.getLsbD_setWidth, hj]
  rcases Nat.lt_trichotomy j (7 - c) with h | h | h
  · have h1 : j < 8 - c := by omega
    simp [show j ≠ 7 - c by omega, h, h1, show c + 1 + j = j + c + 1 by omega]
  · have h1 : j < 8 - c := by omega
    have h2 : d.getLsbD (c + 1 + j) = false := BitVec.getLsbD_of_ge _ _ (by omega)
    subst h
    simp [h1, h2]
  · have h1 : ¬ j < 8 - c := by omega
    have h2 : d.getLsbD (c + 1 + j) = false := BitVec.getLsbD_of_ge _ _ (by omega)
    have h3 : cb.getLsbD (j - (7 - c)) = false := BitVec.getLsbD_of_ge _ _ (by omega)
    simp [show j ≠ 7 - c by omega, show ¬ j < 7 - c by omega, h1, h2, h3]

theorem framerByte_zero_eq_closed (prev d : Byte) (cb : Bit) :
    framerByte 0 prev d cb = (cb.setWidth 8 <<< 7) ||| (d >>> 1) := by
  apply BitVec.eq_of_getLsbD_eq
  intro j hj
  rw [getLsbD_framerByte _ _ _ _ _ (by omega) hj]
  simp only [BitVec.getLsbD_or, BitVec.getLsbD_ushiftRight, BitVec.getLsbD_shiftLeft, BitVec.getLsbD_setWidth, hj]
  by_cases h : j = 7
  · subst h
    simp
  · simp [h, show j < 7 by omega, show 1 + j = j + 1 by omega]

/-- What holds before a loop and is kept by every pass holds after it. -/
theorem forUpto_invariant {α : Type} (P : α → Prop) (n : Nat) (f : Nat → α → α) (a : α) (h0 : P a)
    (hstep : ∀ i, i < n → ∀ b, P b → P (f i b)) : P (forUpto n f a) := by
  induction n with
  | zero => exact h0
  | succ n ih =>
    exact hstep n (by omega) _ (ih fun i hi => hstep i (by omega))

/-- What no pass of a loop changes, the loop does not change. -/
theorem forUpto_unchanged {α β : Type} (obs : α → β) (n : Nat) (f : Nat → α → α) (a : α)
    (h : ∀ i, i < n → ∀ b, obs (f i b) = obs b) : obs (forUpto n f a) = obs a :=
  forUpto_invariant (fun b => obs b = obs a) n f a rfl fun i hi b hb => (h i hi b).trans hb

/-- What one pass `i` of a loop updates by `g`, and no other pass changes, the loop updates by `g` once. -/
theorem forUpto_single {α β : Type} (obs : α → β) (g : β → β) (n i : Nat) (f : Nat → α → α) (a : α) (hi : i < n)
    (hsame : ∀ b, obs (f i b) = g (obs b)) (hother : ∀ j, j < n → j ≠ i → ∀ b, obs (f j b) = obs b) :
    obs (forUpto n f a) = g (obs a) := by
  induction n with
  | zero => omega
  | succ n ih =>
    by_cases h : i = n
    · subst h
      show obs (f i (forUpto i f a)) = _
      rw [hsame, forUpto_unchanged obs i f a fun j hj b => hother j (by omega) (by omega) b]
    · show obs (f n (forUpto n f a)) = _
      rw [hother n (by omega) (by omega)]
      exact ih (by omega) fun j hj hne b => hother j (by omega) hne b

end Sys2Proof.Machine
end

