-- ==== Sys2Proof/Laws/State.lean ====
section
/-! SUPPORT. What each named update of the state leaves in each field, one lemma per field per update, so that later
proofs never unfold an update. -/

namespace Sys2Proof.Machine

@[simp] theorem State.setStatus_reg (s : State) (e : ErrorCode) : (s.setStatus e).reg = { s.reg with lastErr := e.code, lastOk := if e.code = 0 then 1 else 0 } := rfl
@[simp] theorem State.setStatus_fr (s : State) (e : ErrorCode) : (s.setStatus e).fr = s.fr := rfl
@[simp] theorem State.setStatus_fbMem (s : State) (e : ErrorCode) : (s.setStatus e).fbMem = s.fbMem := rfl
@[simp] theorem State.setStatus_srcMem (s : State) (e : ErrorCode) : (s.setStatus e).srcMem = s.srcMem := rfl
@[simp] theorem State.setStatus_log (s : State) (e : ErrorCode) : (s.setStatus e).log = s.log := rfl
@[simp] theorem State.setStatus_phase (s : State) (e : ErrorCode) : (s.setStatus e).phase = s.phase := rfl
@[simp] theorem State.setStatus_inReset (s : State) (e : ErrorCode) : (s.setStatus e).inReset = s.inReset := rfl
@[simp] theorem State.setStatus_host (s : State) (e : ErrorCode) : (s.setStatus e).host = s.host := rfl
@[simp] theorem State.setStatus_readData (s : State) (e : ErrorCode) : (s.setStatus e).readData = s.readData := rfl
@[simp] theorem State.setStatus_answers (s : State) (e : ErrorCode) : (s.setStatus e).answers = s.answers := rfl
@[simp] theorem State.setStatus_asked (s : State) (e : ErrorCode) : (s.setStatus e).asked = s.asked := rfl
@[simp] theorem State.setStatus_nextDraw (s : State) (e : ErrorCode) : (s.setStatus e).nextDraw = s.nextDraw := rfl

@[simp] theorem State.succeed_reg (s : State) : (s.succeed).reg = { s.reg with lastErr := 0, lastOk := 1 } := rfl
@[simp] theorem State.succeed_fr (s : State) : (s.succeed).fr = s.fr := rfl
@[simp] theorem State.succeed_fbMem (s : State) : (s.succeed).fbMem = s.fbMem := rfl
@[simp] theorem State.succeed_srcMem (s : State) : (s.succeed).srcMem = s.srcMem := rfl
@[simp] theorem State.succeed_log (s : State) : (s.succeed).log = s.log := rfl
@[simp] theorem State.succeed_phase (s : State) : (s.succeed).phase = s.phase := rfl
@[simp] theorem State.succeed_inReset (s : State) : (s.succeed).inReset = s.inReset := rfl
@[simp] theorem State.succeed_host (s : State) : (s.succeed).host = s.host := rfl
@[simp] theorem State.succeed_readData (s : State) : (s.succeed).readData = s.readData := rfl
@[simp] theorem State.succeed_answers (s : State) : (s.succeed).answers = s.answers := rfl
@[simp] theorem State.succeed_asked (s : State) : (s.succeed).asked = s.asked := rfl
@[simp] theorem State.succeed_nextDraw (s : State) : (s.succeed).nextDraw = s.nextDraw := rfl

@[simp] theorem State.fail_reg (s : State) (e : ErrorCode) : (s.fail e).reg = (s.setStatus e).reg := rfl
@[simp] theorem State.fail_fr (s : State) (e : ErrorCode) : (s.fail e).fr = s.fr := rfl
@[simp] theorem State.fail_fbMem (s : State) (e : ErrorCode) : (s.fail e).fbMem = s.fbMem := rfl
@[simp] theorem State.fail_srcMem (s : State) (e : ErrorCode) : (s.fail e).srcMem = s.srcMem := rfl
@[simp] theorem State.fail_log (s : State) (e : ErrorCode) : (s.fail e).log = s.log := rfl
@[simp] theorem State.fail_phase (s : State) (e : ErrorCode) : (s.fail e).phase = s.phase := rfl
@[simp] theorem State.fail_inReset (s : State) (e : ErrorCode) : (s.fail e).inReset = s.inReset := rfl
@[simp] theorem State.fail_host (s : State) (e : ErrorCode) : (s.fail e).host = s.host := rfl
@[simp] theorem State.fail_readData (s : State) (e : ErrorCode) : (s.fail e).readData = s.readData := rfl
@[simp] theorem State.fail_answers (s : State) (e : ErrorCode) : (s.fail e).answers = s.answers := rfl
@[simp] theorem State.fail_asked (s : State) (e : ErrorCode) : (s.fail e).asked = s.asked := rfl
@[simp] theorem State.fail_nextDraw (s : State) (e : ErrorCode) : (s.fail e).nextDraw = s.nextDraw := rfl

@[simp] theorem State.setResult_reg (s : State) (v : Byte) : (s.setResult v).reg = { s.reg with result := v } := rfl
@[simp] theorem State.setResult_fr (s : State) (v : Byte) : (s.setResult v).fr = s.fr := rfl
@[simp] theorem State.setResult_fbMem (s : State) (v : Byte) : (s.setResult v).fbMem = s.fbMem := rfl
@[simp] theorem State.setResult_srcMem (s : State) (v : Byte) : (s.setResult v).srcMem = s.srcMem := rfl
@[simp] theorem State.setResult_log (s : State) (v : Byte) : (s.setResult v).log = s.log := rfl
@[simp] theorem State.setResult_phase (s : State) (v : Byte) : (s.setResult v).phase = s.phase := rfl
@[simp] theorem State.setResult_inReset (s : State) (v : Byte) : (s.setResult v).inReset = s.inReset := rfl
@[simp] theorem State.setResult_host (s : State) (v : Byte) : (s.setResult v).host = s.host := rfl
@[simp] theorem State.setResult_readData (s : State) (v : Byte) : (s.setResult v).readData = s.readData := rfl
@[simp] theorem State.setResult_answers (s : State) (v : Byte) : (s.setResult v).answers = s.answers := rfl
@[simp] theorem State.setResult_asked (s : State) (v : Byte) : (s.setResult v).asked = s.asked := rfl
@[simp] theorem State.setResult_nextDraw (s : State) (v : Byte) : (s.setResult v).nextDraw = s.nextDraw := rfl

@[simp] theorem State.takeAnswer_reg (s : State) : (s.takeAnswer).reg = s.reg := rfl
@[simp] theorem State.takeAnswer_fr (s : State) : (s.takeAnswer).fr = s.fr := rfl
@[simp] theorem State.takeAnswer_fbMem (s : State) : (s.takeAnswer).fbMem = s.fbMem := rfl
@[simp] theorem State.takeAnswer_srcMem (s : State) : (s.takeAnswer).srcMem = s.srcMem := rfl
@[simp] theorem State.takeAnswer_log (s : State) : (s.takeAnswer).log = s.log := rfl
@[simp] theorem State.takeAnswer_phase (s : State) : (s.takeAnswer).phase = s.phase := rfl
@[simp] theorem State.takeAnswer_inReset (s : State) : (s.takeAnswer).inReset = s.inReset := rfl
@[simp] theorem State.takeAnswer_host (s : State) : (s.takeAnswer).host = s.host := rfl
@[simp] theorem State.takeAnswer_readData (s : State) : (s.takeAnswer).readData = s.readData := rfl
@[simp] theorem State.takeAnswer_answers (s : State) : (s.takeAnswer).answers = s.answers.tail := rfl
@[simp] theorem State.takeAnswer_asked (s : State) : (s.takeAnswer).asked = s.asked + 1 := rfl
@[simp] theorem State.takeAnswer_nextDraw (s : State) : (s.takeAnswer).nextDraw = s.nextDraw := rfl

@[simp] theorem State.record_reg (s : State) (bytes : List Byte) (ok : Bool) : (s.record bytes ok).reg = s.reg := rfl
@[simp] theorem State.record_fr (s : State) (bytes : List Byte) (ok : Bool) : (s.record bytes ok).fr = s.fr := rfl
@[simp] theorem State.record_fbMem (s : State) (bytes : List Byte) (ok : Bool) : (s.record bytes ok).fbMem = s.fbMem := rfl
@[simp] theorem State.record_srcMem (s : State) (bytes : List Byte) (ok : Bool) : (s.record bytes ok).srcMem = s.srcMem := rfl
@[simp] theorem State.record_log (s : State) (bytes : List Byte) (ok : Bool) : (s.record bytes ok).log = s.log ++ [⟨bytes, ok⟩] := rfl
@[simp] theorem State.record_phase (s : State) (bytes : List Byte) (ok : Bool) : (s.record bytes ok).phase = s.phase := rfl
@[simp] theorem State.record_inReset (s : State) (bytes : List Byte) (ok : Bool) : (s.record bytes ok).inReset = s.inReset := rfl
@[simp] theorem State.record_host (s : State) (bytes : List Byte) (ok : Bool) : (s.record bytes ok).host = s.host := rfl
@[simp] theorem State.record_readData (s : State) (bytes : List Byte) (ok : Bool) : (s.record bytes ok).readData = s.readData := rfl
@[simp] theorem State.record_answers (s : State) (bytes : List Byte) (ok : Bool) : (s.record bytes ok).answers = s.answers := rfl
@[simp] theorem State.record_asked (s : State) (bytes : List Byte) (ok : Bool) : (s.record bytes ok).asked = s.asked := rfl
@[simp] theorem State.record_nextDraw (s : State) (bytes : List Byte) (ok : Bool) : (s.record bytes ok).nextDraw = s.nextDraw := rfl

@[simp] theorem State.accept_reg (s : State) (rest : List HostEvent) : (s.accept rest).reg = s.reg := rfl
@[simp] theorem State.accept_fr (s : State) (rest : List HostEvent) : (s.accept rest).fr = s.fr := rfl
@[simp] theorem State.accept_fbMem (s : State) (rest : List HostEvent) : (s.accept rest).fbMem = s.fbMem := rfl
@[simp] theorem State.accept_srcMem (s : State) (rest : List HostEvent) : (s.accept rest).srcMem = s.srcMem := rfl
@[simp] theorem State.accept_log (s : State) (rest : List HostEvent) : (s.accept rest).log = s.log := rfl
@[simp] theorem State.accept_phase (s : State) (rest : List HostEvent) : (s.accept rest).phase = s.phase := rfl
@[simp] theorem State.accept_inReset (s : State) (rest : List HostEvent) : (s.accept rest).inReset = s.inReset := rfl
@[simp] theorem State.accept_host (s : State) (rest : List HostEvent) : (s.accept rest).host = rest := rfl
@[simp] theorem State.accept_readData (s : State) (rest : List HostEvent) : (s.accept rest).readData = none := rfl
@[simp] theorem State.accept_answers (s : State) (rest : List HostEvent) : (s.accept rest).answers = s.answers := rfl
@[simp] theorem State.accept_asked (s : State) (rest : List HostEvent) : (s.accept rest).asked = s.asked := rfl
@[simp] theorem State.accept_nextDraw (s : State) (rest : List HostEvent) : (s.accept rest).nextDraw = s.nextDraw := rfl

@[simp] theorem State.returnData_reg (s : State) (v : Word) : (s.returnData v).reg = s.reg := rfl
@[simp] theorem State.returnData_fr (s : State) (v : Word) : (s.returnData v).fr = s.fr := rfl
@[simp] theorem State.returnData_fbMem (s : State) (v : Word) : (s.returnData v).fbMem = s.fbMem := rfl
@[simp] theorem State.returnData_srcMem (s : State) (v : Word) : (s.returnData v).srcMem = s.srcMem := rfl
@[simp] theorem State.returnData_log (s : State) (v : Word) : (s.returnData v).log = s.log := rfl
@[simp] theorem State.returnData_phase (s : State) (v : Word) : (s.returnData v).phase = s.phase := rfl
@[simp] theorem State.returnData_inReset (s : State) (v : Word) : (s.returnData v).inReset = s.inReset := rfl
@[simp] theorem State.returnData_host (s : State) (v : Word) : (s.returnData v).host = s.host := rfl
@[simp] theorem State.returnData_readData (s : State) (v : Word) : (s.returnData v).readData = some v := rfl
@[simp] theorem State.returnData_answers (s : State) (v : Word) : (s.returnData v).answers = s.answers := rfl
@[simp] theorem State.returnData_asked (s : State) (v : Word) : (s.returnData v).asked = s.asked := rfl
@[simp] theorem State.returnData_nextDraw (s : State) (v : Word) : (s.returnData v).nextDraw = s.nextDraw := rfl

@[simp] theorem State.assertReset_reg (s : State) : (s.assertReset).reg = s.reg := rfl
@[simp] theorem State.assertReset_fr (s : State) : (s.assertReset).fr = s.fr := rfl
@[simp] theorem State.assertReset_fbMem (s : State) : (s.assertReset).fbMem = s.fbMem := rfl
@[simp] theorem State.assertReset_srcMem (s : State) : (s.assertReset).srcMem = s.srcMem := rfl
@[simp] theorem State.assertReset_log (s : State) : (s.assertReset).log = s.log := rfl
@[simp] theorem State.assertReset_phase (s : State) : (s.assertReset).phase = .idle := rfl
@[simp] theorem State.assertReset_inReset (s : State) : (s.assertReset).inReset = true := rfl
@[simp] theorem State.assertReset_host (s : State) : (s.assertReset).host = s.host := rfl
@[simp] theorem State.assertReset_readData (s : State) : (s.assertReset).readData = s.readData := rfl
@[simp] theorem State.assertReset_answers (s : State) : (s.assertReset).answers = s.answers := rfl
@[simp] theorem State.assertReset_asked (s : State) : (s.assertReset).asked = s.asked := rfl
@[simp] theorem State.assertReset_nextDraw (s : State) : (s.assertReset).nextDraw = s.nextDraw := rfl

@[simp] theorem State.reinitialise_reg (s : State) : (s.reinitialise).reg = Regs.reset := rfl
@[simp] theorem State.reinitialise_fr (s : State) : (s.reinitialise).fr = Framer.reset := rfl
@[simp] theorem State.reinitialise_fbMem (s : State) : (s.reinitialise).fbMem = s.fbMem.redraw s.nextDraw := rfl
@[simp] theorem State.reinitialise_srcMem (s : State) : (s.reinitialise).srcMem = s.srcMem := rfl
@[simp] theorem State.reinitialise_log (s : State) : (s.reinitialise).log = [] := rfl
@[simp] theorem State.reinitialise_phase (s : State) : (s.reinitialise).phase = .idle := rfl
@[simp] theorem State.reinitialise_inReset (s : State) : (s.reinitialise).inReset = false := rfl
@[simp] theorem State.reinitialise_host (s : State) : (s.reinitialise).host = s.host := rfl
@[simp] theorem State.reinitialise_readData (s : State) : (s.reinitialise).readData = s.readData := rfl
@[simp] theorem State.reinitialise_answers (s : State) : (s.reinitialise).answers = s.answers := rfl
@[simp] theorem State.reinitialise_asked (s : State) : (s.reinitialise).asked = s.asked := rfl
@[simp] theorem State.reinitialise_nextDraw (s : State) : (s.reinitialise).nextDraw = s.nextDraw + 1 := rfl

@[simp] theorem State.withCommand_reg (s : State) (w : Word) : (s.withCommand w).reg = s.reg := rfl
@[simp] theorem State.withCommand_fr (s : State) (w : Word) : (s.withCommand w).fr = s.fr := rfl
@[simp] theorem State.withCommand_fbMem (s : State) (w : Word) : (s.withCommand w).fbMem = s.fbMem := rfl
@[simp] theorem State.withCommand_srcMem (s : State) (w : Word) : (s.withCommand w).srcMem = s.srcMem := rfl
@[simp] theorem State.withCommand_log (s : State) (w : Word) : (s.withCommand w).log = s.log := rfl
@[simp] theorem State.withCommand_phase (s : State) (w : Word) : (s.withCommand w).phase = .idle := rfl
@[simp] theorem State.withCommand_inReset (s : State) (w : Word) : (s.withCommand w).inReset = false := rfl
@[simp] theorem State.withCommand_host (s : State) (w : Word) : (s.withCommand w).host = cmdWrite w :: s.host := rfl
@[simp] theorem State.withCommand_readData (s : State) (w : Word) : (s.withCommand w).readData = s.readData := rfl
@[simp] theorem State.withCommand_answers (s : State) (w : Word) : (s.withCommand w).answers = s.answers := rfl
@[simp] theorem State.withCommand_asked (s : State) (w : Word) : (s.withCommand w).asked = s.asked := rfl
@[simp] theorem State.withCommand_nextDraw (s : State) (w : Word) : (s.withCommand w).nextDraw = s.nextDraw := rfl

@[simp] theorem Memory.write_size (m : Memory) (a : Nat) (v : Byte) : (m.write a v).size = m.size := rfl
@[simp] theorem Memory.write_draw (m : Memory) (a : Nat) (v : Byte) : (m.write a v).draw = m.draw := rfl
@[simp] theorem Memory.write_cells (m : Memory) (a : Nat) (v : Byte) : (m.write a v).cells = insertCell m.cells a v := rfl
@[simp] theorem Memory.redraw_size (m : Memory) (n : Nat) : (m.redraw n).size = m.size := rfl
@[simp] theorem Memory.redraw_draw (m : Memory) (n : Nat) : (m.redraw n).draw = n := rfl
@[simp] theorem Memory.redraw_cells (m : Memory) (n : Nat) : (m.redraw n).cells = [] := rfl

@[simp] theorem Framer.store_cursor (f : Framer) (cb : Bit) (d : Byte) : (f.store cb d).cursor = f.cursor := rfl
@[simp] theorem Framer.store_prev (f : Framer) (cb : Bit) (d : Byte) : (f.store cb d).prev = d := rfl
@[simp] theorem Framer.store_frame (f : Framer) (cb : Bit) (d : Byte) : (f.store cb d).frame = f.frame.setIfInBounds f.cursor.toNat (framerByte f.cursor.toNat f.prev d cb) := rfl
@[simp] theorem Framer.storeLast_cursor (f : Framer) (d : Byte) : (f.storeLast d).cursor = f.cursor := rfl
@[simp] theorem Framer.storeLast_prev (f : Framer) (d : Byte) : (f.storeLast d).prev = f.prev := rfl
@[simp] theorem Framer.storeLast_frame (f : Framer) (d : Byte) : (f.storeLast d).frame = f.frame.setIfInBounds 8 d := rfl
@[simp] theorem Framer.restart_cursor (f : Framer) : (f.restart).cursor = 0 := rfl
@[simp] theorem Framer.restart_prev (f : Framer) : (f.restart).prev = 0 := rfl
@[simp] theorem Framer.restart_frame (f : Framer) : (f.restart).frame = f.frame := rfl

end Sys2Proof.Machine
end

