-- ==== Sys2Proof/Laws/Memory.lean ====
section
/-! SUPPORT. The laws of a memory: read after write, and the canonical form kept by every operation. -/

namespace Sys2Proof.Machine

theorem lookupCell_insertCell_same (cells : List Host.Cell) (a : Nat) (v : Byte) :
    lookupCell (insertCell cells a v) a = some v := by
  induction cells with
  | nil => simp [insertCell, lookupCell]
  | cons c rest ih =>
    obtain ⟨k, w⟩ := c
    by_cases h1 : a < k
    · simp [insertCell, lookupCell, h1]
    · by_cases h2 : a = k <;> simp [insertCell, lookupCell, h1, h2, ih]

theorem lookupCell_insertCell_other (cells : List Host.Cell) (a b : Nat) (v : Byte) (h : b ≠ a) :
    lookupCell (insertCell cells a v) b = lookupCell cells b := by
  induction cells with
  | nil => simp [insertCell, lookupCell, h]
  | cons c rest ih =>
    obtain ⟨k, w⟩ := c
    by_cases h1 : a < k
    · simp [insertCell, lookupCell, h1, h]
    · by_cases h2 : a = k
      · subst h2; simp [insertCell, lookupCell, h]
      · simp [insertCell, lookupCell, h1, h2, ih]

/-- R86: a read returns the last byte written to its address. -/
@[simp] theorem Memory.read_write_same (m : Memory) (a : Nat) (v : Byte) : (m.write a v).read a = v := by
  simp [Memory.read, lookupCell_insertCell_same]

/-- R86: a write leaves every other address as it was. -/
theorem Memory.read_write_other (m : Memory) {a b : Nat} (v : Byte) (h : b ≠ a) :
    (m.write a v).read b = m.read b := by
  simp [Memory.read, Memory.unwritten, lookupCell_insertCell_other _ _ _ _ h]

theorem Memory.read_write (m : Memory) (a b : Nat) (v : Byte) :
    (m.write a v).read b = if b = a then v else m.read b := by
  by_cases h : b = a
  · subst h; simp
  · simp [h, Memory.read_write_other]

/-- After a draw of new contents every byte is the free value of that draw (R59, R237). -/
@[simp] theorem Memory.read_redraw (m : Memory) (n a : Nat) : (m.redraw n).read a = Config.powerOnByte n a := by
  simp [Memory.read, Memory.unwritten, lookupCell]

theorem mem_insertCell {cells : List Host.Cell} {a : Nat} {v : Byte} {c : Host.Cell}
    (h : c ∈ insertCell cells a v) : c = (a, v) ∨ c ∈ cells := by
  induction cells with
  | nil => simpa [insertCell] using h
  | cons k rest ih =>
    obtain ⟨k, w⟩ := k
    unfold insertCell at h
    split at h
    · simpa using h
    · split at h
      · rcases List.mem_cons.1 h with h | h
        · exact .inl h
        · exact .inr (List.mem_cons_of_mem _ h)
      · rcases List.mem_cons.1 h with h | h
        · exact .inr (h ▸ List.mem_cons_self)
        · rcases ih h with h | h
          · exact .inl h
          · exact .inr (List.mem_cons_of_mem _ h)

theorem insertCell_rising (cells : List Host.Cell) (a : Nat) (v : Byte)
    (h : cells.Pairwise fun x y => x.1 < y.1) : (insertCell cells a v).Pairwise fun x y => x.1 < y.1 := by
  induction cells with
  | nil => simp [insertCell]
  | cons c rest ih =>
    obtain ⟨k, w⟩ := c
    obtain ⟨hk, hr⟩ := List.pairwise_cons.1 h
    unfold insertCell
    split
    · rename_i hlt
      refine List.pairwise_cons.2 ⟨fun y hy => ?_, h⟩
      rcases List.mem_cons.1 hy with rfl | hy
      · exact hlt
      · exact Nat.lt_trans hlt (hk y hy)
    · split
      · rename_i _ heq
        subst heq
        exact List.pairwise_cons.2 ⟨hk, hr⟩
      · rename_i hlt hne
        refine List.pairwise_cons.2 ⟨fun y hy => ?_, ih hr⟩
        rcases mem_insertCell hy with rfl | hy
        · show k < a
          omega
        · exact hk y hy

theorem Memory.wf_iff (m : Memory) :
    m.wf = true ↔ m.cells.Pairwise (fun x y => x.1 < y.1) ∧ ∀ c ∈ m.cells, c.1 < m.size := by
  simp [Memory.wf]

/-- A write to an address that exists keeps the canonical form. -/
theorem Memory.write_wf (m : Memory) (a : Nat) (v : Byte) (h : m.wf = true) (ha : a < m.size) :
    (m.write a v).wf = true := by
  rw [Memory.wf_iff] at h ⊢
  refine ⟨insertCell_rising _ _ _ h.1, fun c hc => ?_⟩
  rcases mem_insertCell hc with rfl | hc
  · exact ha
  · exact h.2 c hc

/-- A draw of new contents is in canonical form. -/
@[simp] theorem Memory.redraw_wf (m : Memory) (n : Nat) : (m.redraw n).wf = true := by simp [Memory.wf]

/-- The memories of the machine after reset are in canonical form. -/
theorem reset_memories_wf : State.reset.fbMem.wf = true ∧ State.reset.srcMem.wf = true := by decide

end Sys2Proof.Machine
end

