-- ==== Sys2Proof/Laws/Ops.lean ====
section
/-! SUPPORT. What each shared operation can do, said once: a transaction, a push, the loops of FLUSH and SENDF, and the
ways a command ends. Later proofs cite these and do not unfold the operations. -/

namespace Sys2Proof.Machine

/-- `t` is `s` after some transactions: at most the framer, the log, the environment's answers and the phase
differ (R168, R206). -/
def State.onlyTransported (s t : State) : Prop :=
  t = { s with fr := t.fr, log := t.log, answers := t.answers, asked := t.asked, phase := t.phase }

theorem State.onlyTransported.refl (s : State) : s.onlyTransported s := rfl

theorem State.onlyTransported.trans {s t u : State} (h1 : s.onlyTransported t) (h2 : t.onlyTransported u) :
    s.onlyTransported u := by
  unfold State.onlyTransported at *
  rw [h2, h1]

/-- The state a part of a command came to. -/
def Progress.state : Progress → State
  | .done _ s => s
  | .waiting s => s

@[simp] theorem Progress.state_done (ok : Bool) (s : State) : (Progress.done ok s).state = s := rfl
@[simp] theorem Progress.state_waiting (s : State) : (Progress.waiting s).state = s := rfl

/-! ### A transaction -/

theorem transmit_success {s : State} (bytes : List Byte) (h : s.answerAt 0 = .success) :
    transmit s bytes = .done true (s.takeAnswer.record bytes true) := by simp [transmit, h]

theorem transmit_failure {s : State} (bytes : List Byte) (h : s.answerAt 0 = .failure) :
    transmit s bytes = .done false (s.takeAnswer.record bytes false) := by simp [transmit, h]

theorem transmit_silence {s : State} (bytes : List Byte) (h : s.answerAt 0 = .silence) :
    transmit s bytes = .waiting { s.takeAnswer with phase := .waiting bytes } := by simp [transmit, h]

/-- Everything a transaction can do (R206, R236). -/
theorem transmit_cases (s : State) (bytes : List Byte) :
    (∃ ok, s.answerAt 0 = (if ok then .success else .failure) ∧
      transmit s bytes = .done ok (s.takeAnswer.record bytes ok)) ∨
    (s.answerAt 0 = .silence ∧ transmit s bytes = .waiting { s.takeAnswer with phase := .waiting bytes }) := by
  cases h : s.answerAt 0 with
  | success => exact .inl ⟨true, rfl, transmit_success bytes h⟩
  | failure => exact .inl ⟨false, rfl, transmit_failure bytes h⟩
  | silence => exact .inr ⟨rfl, transmit_silence bytes h⟩

@[simp] theorem State.answerAt_takeAnswer (s : State) (k : Nat) : s.takeAnswer.answerAt k = s.answerAt (k + 1) := by
  unfold State.answerAt State.takeAnswer
  cases h : s.answers with
  | nil => simp [Nat.add_assoc, Nat.add_comm 1 k]
  | cons a rest => simp [Nat.add_assoc, Nat.add_comm 1 k]

@[simp] theorem State.answerAt_record (s : State) (bytes : List Byte) (ok : Bool) (k : Nat) :
    (s.record bytes ok).answerAt k = s.answerAt k := rfl

theorem State.answerAt_congr {s t : State} (k : Nat) (h1 : t.answers = s.answers) (h2 : t.asked = s.asked) :
    t.answerAt k = s.answerAt k := by simp [State.answerAt, h1, h2]

/-! ### A push -/

/-- The frame a push at cursor 7 transmits (R160, R162). -/
def Framer.full (f : Framer) (cb : Bit) (d : Byte) : Framer := (f.store cb d).storeLast d

/-- A push below cursor 7 touches the framer only (R160). -/
theorem pushByte_below {s : State} (cb : Bit) (d : Byte) (h : s.fr.cursor ≠ 7) :
    pushByte cb d s = .done true { s with fr := { s.fr.store cb d with cursor := s.fr.cursor + 1 } } := by
  unfold pushByte
  exact if_neg h

/-- A push at cursor 7 that is answered logs the frame and restarts the framer, whatever the answer (R160, R169). -/
theorem pushByte_answered {s : State} (cb : Bit) (d : Byte) (ok : Bool) (h : s.fr.cursor = 7)
    (ha : s.answerAt 0 = if ok then .success else .failure) :
    pushByte cb d s = .done ok
      { s with
        fr := (s.fr.full cb d).restart
        log := s.log ++ [⟨(s.fr.full cb d).frame.toList, ok⟩]
        answers := s.answers.tail
        asked := s.asked + 1 } := by
  have hs : ∀ f : Framer, ({ s with fr := f } : State).answerAt 0 = s.answerAt 0 := fun _ => rfl
  cases ok
  · simp only [pushByte, h, if_true]
    rw [transmit_failure _ ((hs _).trans (by simpa using ha))]
    rfl
  · simp only [pushByte, h, if_true]
    rw [transmit_success _ ((hs _).trans (by simpa using ha))]
    rfl

/-- A push at cursor 7 that is never answered waits, its frame complete and not logged (R236). -/
theorem pushByte_silent {s : State} (cb : Bit) (d : Byte) (h : s.fr.cursor = 7) (ha : s.answerAt 0 = .silence) :
    pushByte cb d s = .waiting
      { s with
        fr := s.fr.full cb d
        phase := .waiting (s.fr.full cb d).frame.toList
        answers := s.answers.tail
        asked := s.asked + 1 } := by
  have hs : ∀ f : Framer, ({ s with fr := f } : State).answerAt 0 = s.answerAt 0 := fun _ => rfl
  simp only [pushByte, h, if_true]
  rw [transmit_silence _ ((hs _).trans ha)]
  rfl

/-- Everything a push can do. -/
theorem pushByte_cases (cb : Bit) (d : Byte) (s : State) :
    (s.fr.cursor ≠ 7 ∧ pushByte cb d s = .done true { s with fr := { s.fr.store cb d with cursor := s.fr.cursor + 1 } }) ∨
    (s.fr.cursor = 7 ∧ ∃ ok : Bool, s.answerAt 0 = (if ok then .success else .failure) ∧
      pushByte cb d s = .done ok
        { s with
          fr := (s.fr.full cb d).restart
          log := s.log ++ [⟨(s.fr.full cb d).frame.toList, ok⟩]
          answers := s.answers.tail
          asked := s.asked + 1 }) ∨
    (s.fr.cursor = 7 ∧ s.answerAt 0 = .silence ∧
      pushByte cb d s = .waiting
        { s with
          fr := s.fr.full cb d
          phase := .waiting (s.fr.full cb d).frame.toList
          answers := s.answers.tail
          asked := s.asked + 1 }) := by
  by_cases h : s.fr.cursor = 7
  · refine .inr ?_
    cases ha : s.answerAt 0 with
    | success => exact .inl ⟨h, true, by simp, pushByte_answered cb d true h (by simpa using ha)⟩
    | failure => exact .inl ⟨h, false, by simp, pushByte_answered cb d false h (by simpa using ha)⟩
    | silence => exact .inr ⟨h, rfl, pushByte_silent cb d h ha⟩
  · exact .inl ⟨h, pushByte_below cb d h⟩

/-- A push leaves the registers, the memories, the reset line and the host's side alone (R160, R168). -/
theorem pushByte_onlyTransported (cb : Bit) (d : Byte) (s : State) : s.onlyTransported (pushByte cb d s).state := by
  rcases pushByte_cases cb d s with ⟨_, h⟩ | ⟨_, ok, _, h⟩ | ⟨_, _, h⟩ <;> rw [h] <;> rfl

/-- What every push keeps, the loop of FLUSH keeps. -/
theorem flushLoop_invariant (P : State → Prop) (hP : ∀ cb d s, P s → P (pushByte cb d s).state)
    (fuel : Nat) (ok : Bool) (cb : Bit) (noop : Byte) (s : State) (h : P s) :
    P (flushLoop fuel ok cb noop s).state := by
  induction fuel generalizing ok s with
  | zero => exact h
  | succ n ih =>
    unfold flushLoop
    split
    · exact h
    · have hp := hP cb noop s h
      split
      · rename_i ok' t heq
        exact ih ok' t (by simpa [heq] using hp)
      · rename_i t heq
        simpa [heq] using hp

/-- What every push keeps, the loop of SENDF keeps. -/
theorem pushAll_invariant (P : State → Prop) (hP : ∀ cb d s, P s → P (pushByte cb d s).state)
    (cb : Bit) (bytes : List Byte) (s : State) (h : P s) : P (pushAll cb bytes s).state := by
  induction bytes generalizing s with
  | nil => exact h
  | cons b rest ih =>
    unfold pushAll
    have hp := hP cb b s h
    split
    · rename_i t heq
      exact ih t (by simpa [heq] using hp)
    · rename_i t heq
      simpa [heq] using hp
    · rename_i t heq
      simpa [heq] using hp

theorem flushLoop_onlyTransported (fuel : Nat) (ok : Bool) (cb : Bit) (noop : Byte) (s : State) :
    s.onlyTransported (flushLoop fuel ok cb noop s).state :=
  flushLoop_invariant (s.onlyTransported ·) (fun cb d t ht => ht.trans (pushByte_onlyTransported cb d t))
    fuel ok cb noop s (State.onlyTransported.refl s)

theorem pushAll_onlyTransported (cb : Bit) (bytes : List Byte) (s : State) :
    s.onlyTransported (pushAll cb bytes s).state :=
  pushAll_invariant (s.onlyTransported ·) (fun cb d t ht => ht.trans (pushByte_onlyTransported cb d t))
    cb bytes s (State.onlyTransported.refl s)

theorem transmit_onlyTransported (s : State) (bytes : List Byte) : s.onlyTransported (transmit s bytes).state := by
  rcases transmit_cases s bytes with ⟨ok, _, h⟩ | ⟨_, h⟩ <;> rw [h] <;> rfl

/-! ### The end of a command -/

@[simp] theorem endTransport_done_true (s : State) : endTransport (.done true s) = .next s.succeed := rfl
@[simp] theorem endTransport_done_false (s : State) :
    endTransport (.done false s) = .next (s.fail .transportFail) := rfl
@[simp] theorem endTransport_waiting (s : State) : endTransport (.waiting s) = .next s := rfl

/-- A command that transmits ends with success or TRANSPORT_FAIL, or waits (R202, R236). -/
theorem endTransport_cases (p : Progress) :
    endTransport p = .next p.state.succeed ∨ endTransport p = .next (p.state.fail .transportFail) ∨
      endTransport p = .next p.state := by
  cases p with
  | done ok s => cases ok <;> simp
  | waiting s => simp

/-- The codes are 0 exactly for success (R201). -/
theorem ErrorCode.code_eq_zero_iff (e : ErrorCode) : e.code = 0 ↔ e = .none := by cases e <;> decide

/-- Ending a command leaves STATUS legal (R35, R201). -/
theorem State.setStatus_statusLegal (s : State) (e : ErrorCode) : (s.setStatus e).reg.statusLegal = true := by
  cases e <;> rfl

theorem State.succeed_eq_withStatus (s : State) : s.succeed = s.withStatus 1 0 := rfl
theorem State.fail_eq_withStatus (s : State) (e : ErrorCode) (h : e ≠ .none) : s.fail e = s.withStatus 0 e.code := by
  cases e <;> first | contradiction | rfl

end Sys2Proof.Machine
end

