-- ==== Sys2Proof/Laws/Composite.lean ====
section
/-! SUPPORT. What painting the framebuffer does: which bytes it can touch, and what each pixel holds after it
(40_composite.md R130 to R139). -/

namespace Sys2Proof.Machine

/-! ### Addresses -/

theorem page_address_injective {W x y x' y' : Nat} (hx : x < W) (hx' : x' < W)
    (h : x + y / 8 * W = x' + y' / 8 * W) : x = x' ∧ y / 8 = y' / 8 := by
  have hm : (x + y / 8 * W) % W = (x' + y' / 8 * W) % W := by rw [h]
  rw [Nat.add_mul_mod_self_right, Nat.add_mul_mod_self_right, Nat.mod_eq_of_lt hx, Nat.mod_eq_of_lt hx'] at hm
  subst hm
  have : y / 8 * W = y' / 8 * W := by omega
  exact ⟨rfl, Nat.eq_of_mul_eq_mul_right (by omega) this⟩

theorem pixel_index_injective {W x y x' y' : Nat} (hx : x < W) (hx' : x' < W) (h : x + y * W = x' + y' * W) :
    x = x' ∧ y = y' := by
  have hm : (x + y * W) % W = (x' + y' * W) % W := by rw [h]
  rw [Nat.add_mul_mod_self_right, Nat.add_mul_mod_self_right, Nat.mod_eq_of_lt hx, Nat.mod_eq_of_lt hx'] at hm
  subst hm
  have : y * W = y' * W := by omega
  exact ⟨rfl, Nat.eq_of_mul_eq_mul_right (by omega) this⟩

theorem pixel_index_lt {W H x y : Nat} (hx : x < W) (hy : y < H) : x + y * W < W * H := by
  have h1 : (y + 1) * W ≤ H * W := Nat.mul_le_mul_right W hy
  have h2 : (y + 1) * W = y * W + W := by ring
  rw [Nat.mul_comm W H]
  omega

/-- The page-layout address of a pixel is below `fbSize` (R77, R79). -/
theorem State.pageAddr_lt_fbSize {s : State} {x y : Nat} (hl : s.nibbleLayout = false) (hH : s.fbHeight % 8 = 0)
    (hx : x < s.fbWidth) (hy : y < s.fbHeight) : s.pageAddr x y < s.fbSize := by
  have h1 : y / 8 < s.fbHeight / 8 := by omega
  have h2 : s.fbWidth * s.fbHeight / 8 = s.fbWidth * (s.fbHeight / 8) :=
    Nat.mul_div_assoc _ (Nat.dvd_of_mod_eq_zero hH)
  simp only [State.pageAddr, State.fbSize, hl, Bool.false_eq_true, if_false, h2]
  exact pixel_index_lt hx h1

/-- The nibble-layout address of a channel is below `fbSize` (R78, R79). -/
theorem State.nibbleAddr_lt_fbSize {s : State} {x y ch : Nat} (hl : s.nibbleLayout = true)
    (hx : x < s.fbWidth) (hy : y < s.fbHeight) (hc : ch < 3) : s.nibbleAddr x y + ch < s.fbSize := by
  have := pixel_index_lt hx hy
  simp only [State.nibbleAddr, State.fbSize, hl, if_true]
  omega

theorem State.nibbleAddr_injective {s : State} {x y ch x' y' ch' : Nat} (hx : x < s.fbWidth) (hx' : x' < s.fbWidth)
    (hc : ch < 3) (hc' : ch' < 3) (h : s.nibbleAddr x y + ch = s.nibbleAddr x' y' + ch') :
    x = x' ∧ y = y' ∧ ch = ch' := by
  simp only [State.nibbleAddr] at h
  have h1 : x + y * s.fbWidth = x' + y' * s.fbWidth := by omega
  obtain ⟨h2, h3⟩ := pixel_index_injective hx hx' h1
  exact ⟨h2, h3, by omega⟩

/-! ### Which bytes painting touches -/

/-- What a geometry that passes `geomOK` says (R131). -/
theorem State.geomOK_iff (s : State) :
    s.geomOK = true ↔ 1 ≤ s.fbWidth ∧ 1 ≤ s.fbHeight ∧ (s.nibbleLayout = true ∨ s.fbHeight % 8 = 0) ∧
      s.fbSize ≤ s.fbMem.size := by
  simp [State.geomOK, and_assoc]

theorem paintChannel_invariant {s : State} (P : Memory → Prop) (mode : BlendMode) (x y ch : Nat) (m : Memory)
    (hw : ∀ m v, P m → P (m.write (s.nibbleAddr x y + ch) v)) (h : P m) : P (paintChannel s mode x y ch m) := by
  unfold paintChannel
  cases mode <;> cases s.sample x y <;> first | exact h | exact hw _ _ h

/-- Painting one pixel writes below `fbSize` only (R139). -/
theorem paintPixel_invariant {s : State} (hg : s.geomOK = true) (P : Memory → Prop)
    (hw : ∀ m a v, a < s.fbSize → P m → P (m.write a v)) (mode : BlendMode) {x y : Nat} (hx : x < s.fbWidth)
    (hy : y < s.fbHeight) (m : Memory) (h : P m) : P (paintPixel s mode x y m) := by
  obtain ⟨-, -, hl, -⟩ := s.geomOK_iff.1 hg
  unfold paintPixel
  split
  · rename_i hn
    refine forUpto_invariant P 3 _ m h fun ch hch m hm => ?_
    exact paintChannel_invariant P mode x y ch m (fun m v => hw m _ v (State.nibbleAddr_lt_fbSize hn hx hy hch)) hm
  · rename_i hn
    have hn : s.nibbleLayout = false := by simpa using hn
    have hH : s.fbHeight % 8 = 0 := by simpa [hn] using hl
    exact hw _ _ _ (State.pageAddr_lt_fbSize hn hH hx hy) h

/-- Painting writes below `fbSize` only: what every such write keeps, painting keeps (R139). -/
theorem paint_invariant {s : State} (hg : s.geomOK = true) (P : Memory → Prop)
    (hw : ∀ m a v, a < s.fbSize → P m → P (m.write a v)) (mode : BlendMode) (h : P s.fbMem) : P (paint s mode) :=
  forUpto_invariant P _ _ _ h fun _ hy m hm =>
    forUpto_invariant P _ _ m hm fun _ hx m' hm' => paintPixel_invariant hg P hw mode hx hy m' hm'

theorem paint_size {s : State} (hg : s.geomOK = true) (mode : BlendMode) : (paint s mode).size = s.fbMem.size :=
  paint_invariant hg (fun m => m.size = s.fbMem.size) (fun _ _ _ _ h => h) mode rfl

theorem paint_draw {s : State} (hg : s.geomOK = true) (mode : BlendMode) : (paint s mode).draw = s.fbMem.draw :=
  paint_invariant hg (fun m => m.draw = s.fbMem.draw) (fun _ _ _ _ h => h) mode rfl

/-- "bytes above `fbSize` are never touched by a command" (R72, R139). -/
theorem paint_read_outside {s : State} (hg : s.geomOK = true) (mode : BlendMode) {a : Nat} (ha : s.fbSize ≤ a) :
    (paint s mode).read a = s.fbMem.read a :=
  paint_invariant hg (fun m => m.read a = s.fbMem.read a)
    (fun m b v hb h => (m.read_write_other v (by omega)).trans h) mode rfl

/-- Painting keeps the canonical form of FBMEM. -/
theorem paint_wf {s : State} (hg : s.geomOK = true) (mode : BlendMode) (h : s.fbMem.wf = true) :
    (paint s mode).wf = true :=
  (paint_invariant hg (fun m => m.wf = true ∧ m.size = s.fbMem.size)
    (fun m a v ha hm => ⟨m.write_wf a v hm.1 (by
      have := (s.geomOK_iff.1 hg).2.2.2
      omega), hm.2⟩) mode ⟨h, rfl⟩).1

/-! ### What each pixel holds after painting -/

/-- One pass at another pixel leaves a page-layout pixel alone; the pass at the pixel blends it (R137). -/
theorem paintPage_bit {s : State} (mode : BlendMode) {x y x0 y0 : Nat} (hx : x < s.fbWidth) (hx0 : x0 < s.fbWidth)
    (m : Memory) :
    bitAt ((paintPage s mode x y m).read (s.pageAddr x0 y0)) (y0 % 8) =
      if x = x0 ∧ y = y0 then
        blend mode (s.sample x y).isSome (bitAt (m.read (s.pageAddr x0 y0)) (y0 % 8)) s.reg.fg.mono s.reg.bg.mono
      else bitAt (m.read (s.pageAddr x0 y0)) (y0 % 8) := by
  unfold paintPage
  by_cases ha : s.pageAddr x0 y0 = s.pageAddr x y
  · obtain ⟨h1, h2⟩ := page_address_injective hx0 hx ha
    subst h1
    by_cases hy : y = y0
    · subst hy
      simp [bitAt_setBit_same _ _ _ (Nat.mod_lt y (by omega : 0 < 8))]
    · have hne : y0 % 8 ≠ y % 8 := by omega
      simp only [hy, and_false, if_false]
      rw [ha, Memory.read_write_same, bitAt_setBit_other _ _ (Nat.mod_lt y (by omega : 0 < 8)) hne]
  · have hne : ¬ (x = x0 ∧ y = y0) := by
      rintro ⟨rfl, rfl⟩
      exact ha rfl
    rw [if_neg hne]
    simp only [Memory.read_write_other _ _ ha]

/-- R137: on the page layout every pixel holds the blend of its old value. -/
theorem paint_page_pixel {s : State} (hl : s.nibbleLayout = false) (mode : BlendMode) {x y : Nat}
    (hx : x < s.fbWidth) (hy : y < s.fbHeight) :
    bitAt ((paint s mode).read (s.pageAddr x y)) (y % 8) =
      blend mode (s.sample x y).isSome (bitAt (s.fbMem.read (s.pageAddr x y)) (y % 8)) s.reg.fg.mono s.reg.bg.mono := by
  have hp : ∀ i j m, paintPixel s mode i j m = paintPage s mode i j m := fun i j m => by simp [paintPixel, hl]
  refine forUpto_single (fun m : Memory => bitAt (m.read (s.pageAddr x y)) (y % 8))
    (fun old => blend mode (s.sample x y).isSome old s.reg.fg.mono s.reg.bg.mono) _ y _ _ hy ?_ ?_
  · intro m
    refine forUpto_single (fun m : Memory => bitAt (m.read (s.pageAddr x y)) (y % 8))
      (fun old => blend mode (s.sample x y).isSome old s.reg.fg.mono s.reg.bg.mono) _ x _ _ hx ?_ ?_
    · intro m'
      rw [hp, paintPage_bit mode hx hx]
      simp
    · intro i hi hne m'
      rw [hp, paintPage_bit mode hi hx]
      simp [hne]
  · intro j _ hne m
    refine forUpto_unchanged (fun m : Memory => bitAt (m.read (s.pageAddr x y)) (y % 8)) _ _ _ fun i hi m' => ?_
    rw [hp, paintPage_bit mode hi hx]
    simp [hne]

/-- The byte a channel holds after its pass, from what it held before (R136, R138). -/
def channelAfter (s : State) (mode : BlendMode) (x y ch : Nat) (old : Byte) : Byte :=
  match mode, s.sample x y with
  | .exclusive, some col => old ^^^ (col.channel ch).setWidth 8
  | .overwrite, some col => (col.channel ch).setWidth 8
  | .overwrite, none => (s.reg.bg.rgb.channel ch).setWidth 8
  | .overlay, some col => (col.channel ch).setWidth 8
  | .exclusive, none => old
  | .overlay, none => old

theorem paintChannel_read_same (s : State) (mode : BlendMode) (x y ch : Nat) (m : Memory) :
    (paintChannel s mode x y ch m).read (s.nibbleAddr x y + ch)
      = channelAfter s mode x y ch (m.read (s.nibbleAddr x y + ch)) := by
  unfold paintChannel channelAfter
  cases mode <;> cases s.sample x y <;> simp

theorem paintChannel_read_other (s : State) (mode : BlendMode) (x y ch a : Nat) (m : Memory)
    (h : a ≠ s.nibbleAddr x y + ch) : (paintChannel s mode x y ch m).read a = m.read a := by
  unfold paintChannel
  cases mode <;> cases s.sample x y <;> simp [Memory.read_write_other _ _ h]

/-- R138: on the nibble layout every channel byte holds what its own pass makes of its old value. -/
theorem paint_nibble_channel {s : State} (hl : s.nibbleLayout = true) (mode : BlendMode) {x y ch : Nat}
    (hx : x < s.fbWidth) (hy : y < s.fbHeight) (hc : ch < 3) :
    (paint s mode).read (s.nibbleAddr x y + ch)
      = channelAfter s mode x y ch (s.fbMem.read (s.nibbleAddr x y + ch)) := by
  have hp : ∀ i j m, paintPixel s mode i j m = forUpto 3 (paintChannel s mode i j) m := fun i j m => by
    simp [paintPixel, hl]
  refine forUpto_single (fun m : Memory => m.read (s.nibbleAddr x y + ch)) (channelAfter s mode x y ch) _ y _ _ hy ?_ ?_
  · intro m
    refine forUpto_single (fun m : Memory => m.read (s.nibbleAddr x y + ch)) (channelAfter s mode x y ch) _ x _ _ hx ?_ ?_
    · intro m'
      rw [hp]
      refine forUpto_single (fun m : Memory => m.read (s.nibbleAddr x y + ch)) (channelAfter s mode x y ch) _ ch _ _ hc ?_ ?_
      · exact fun m'' => paintChannel_read_same s mode x y ch m''
      · exact fun k _ hne m'' => paintChannel_read_other s mode x y k _ m'' (by omega)
    · intro i hi hne m'
      rw [hp]
      refine forUpto_unchanged (fun m : Memory => m.read (s.nibbleAddr x y + ch)) _ _ _ fun k hk m'' => ?_
      exact paintChannel_read_other s mode i y k _ m'' fun h =>
        hne (State.nibbleAddr_injective hx hi hc hk h).1.symm
  · intro j _ hne m
    refine forUpto_unchanged (fun m : Memory => m.read (s.nibbleAddr x y + ch)) _ _ _ fun i hi m' => ?_
    rw [hp]
    refine forUpto_unchanged (fun m : Memory => m.read (s.nibbleAddr x y + ch)) _ _ _ fun k hk m'' => ?_
    exact paintChannel_read_other s mode i j k _ m'' fun h =>
      hne (State.nibbleAddr_injective hx hi hc hk h).2.1.symm

/-! ### The command -/

theorem compositeCheck_eq_none_iff (s : State) :
    compositeCheck s = .none ↔ s.geomOK = true ∧ s.depthOK = true ∧ s.srcInRange = true := by
  unfold compositeCheck
  cases s.geomOK <;> cases s.depthOK <;> cases s.srcInRange <;> simp

/-- Everything a compositing command can do (R130, R139): paint the framebuffer, or change STATUS only. -/
theorem composite_cases (mode : BlendMode) (s : State) :
    (compositeCheck s = .none ∧ composite mode s = .next (State.succeed { s with fbMem := paint s mode })) ∨
    (compositeCheck s ≠ .none ∧ composite mode s = .next (s.fail (compositeCheck s))) := by
  unfold composite
  cases h : compositeCheck s <;> simp

end Sys2Proof.Machine
end

