-- ==== Sys2Proof/Laws/Framer.lean ====
section
/-! SUPPORT. What the framer holds between pushes: the words of an incomplete frame in the closed form of R161
(41_framer.md). -/

namespace Sys2Proof.Machine

/-- The framer holds the words `ws` of an incomplete frame (R49 to R51, R57). -/
def Framer.holds (f : Framer) (ws : List (Bit × Byte)) : Prop :=
  ws.length < 8 ∧ f.cursor.toNat = ws.length ∧ (0 < ws.length → f.prev = (wordAt ws (ws.length - 1)).2) ∧
  ∀ k, k < ws.length → f.frame[k]? = some (packedByte ws k)

theorem wordAt_append_left (ws more : List (Bit × Byte)) {k : Nat} (h : k < ws.length) :
    wordAt (ws ++ more) k = wordAt ws k := by
  simp [wordAt, List.getD_eq_getElem?_getD, List.getElem?_append_left h]

theorem wordAt_append_last (ws : List (Bit × Byte)) (w : Bit × Byte) : wordAt (ws ++ [w]) ws.length = w := by
  simp [wordAt, List.getD_eq_getElem?_getD]

/-- A byte of the frame rests on the words up to its own position only (R161). -/
theorem packedByte_append (ws more : List (Bit × Byte)) {k : Nat} (h : k < ws.length) (h8 : k < 8) :
    packedByte (ws ++ more) k = packedByte ws k := by
  unfold packedByte
  by_cases h0 : k = 0
  · subst h0
    simp [wordAt_append_left ws more h]
  · simp [h0, h8, wordAt_append_left ws more h, wordAt_append_left ws more (show k - 1 < ws.length by omega)]

/-- The byte the next push stores is the next byte of the closed form (R160, R161). -/
theorem framerByte_of_holds {f : Framer} {ws : List (Bit × Byte)} (h : f.holds ws) (cb : Bit) (d : Byte) :
    framerByte f.cursor.toNat f.prev d cb = packedByte (ws ++ [(cb, d)]) ws.length := by
  obtain ⟨hlt, hc, hp, -⟩ := h
  rw [hc]
  by_cases h0 : ws.length = 0
  · have : ws = [] := List.eq_nil_of_length_eq_zero h0
    subst this
    simp [framerByte_zero_eq_closed, packedByte, wordAt]
  · rw [framerByte_eq_closed _ _ _ _ hlt (by omega), hp (by omega)]
    simp only [packedByte, h0, hlt, if_false, if_true, wordAt_append_last]
    rw [wordAt_append_left ws _ (by omega)]

theorem Framer.store_frame_getElem? {f : Framer} {ws : List (Bit × Byte)} (h : f.holds ws) (cb : Bit) (d : Byte)
    {k : Nat} (hk : k ≤ ws.length) : (f.store cb d).frame[k]? = some (packedByte (ws ++ [(cb, d)]) k) := by
  obtain ⟨hlt, hc, -, hf⟩ := id h
  rw [Framer.store_frame, framerByte_of_holds h cb d, hc]
  by_cases hkl : k = ws.length
  · subst hkl
    rw [Vector.getElem?_setIfInBounds_self]
    simp [show ws.length < 9 by omega]
  · rw [Vector.getElem?_setIfInBounds_ne (by omega), hf k (by omega), packedByte_append ws _ (by omega) (by omega)]

/-- A push below cursor 7 adds its word to those the framer holds (R160). -/
theorem Framer.holds_push {f : Framer} {ws : List (Bit × Byte)} (h : f.holds ws) (h7 : ws.length < 7) (cb : Bit)
    (d : Byte) : Framer.holds { f.store cb d with cursor := f.cursor + 1 } (ws ++ [(cb, d)]) := by
  obtain ⟨hlt, hc, -, -⟩ := id h
  refine ⟨by simp; omega, ?_, fun _ => ?_, fun k hk => ?_⟩
  · simp only [BitVec.toNat_add, hc, List.length_append, List.length_singleton]
    have : BitVec.toNat (1 : BitVec 3) = 1 := rfl
    omega
  · simp [wordAt_append_last]
  · simp only [List.length_append, List.length_singleton] at hk
    exact Framer.store_frame_getElem? h cb d (by omega)

/-- At cursor 7 the push completes the frame of the eight words (R161, R162). -/
theorem Framer.full_of_holds {f : Framer} {ws : List (Bit × Byte)} (h : f.holds ws) (h7 : ws.length = 7)
    (cb : Bit) (d : Byte) : (f.full cb d).frame.toList = packWords (ws ++ [(cb, d)]) := by
  apply List.ext_getElem?
  intro k
  have hv : (f.full cb d).frame.toList[k]? = (f.full cb d).frame[k]? := by simp
  rw [hv]
  unfold Framer.full
  rw [Framer.storeLast_frame]
  by_cases h8 : k = 8
  · subst h8
    rw [Vector.getElem?_setIfInBounds_self]
    have hw : wordAt (ws ++ [(cb, d)]) 7 = (cb, d) := by rw [← h7]; exact wordAt_append_last _ _
    simp [packWords, packedByte, hw]
  · rw [Vector.getElem?_setIfInBounds_ne (by omega)]
    by_cases hk : k < 8
    · rw [Framer.store_frame_getElem? h cb d (by omega)]
      simp [packWords, show k < 9 by omega]
    · simp [packWords, show 9 ≤ k by omega]

/-- A framer at cursor 0 holds no word (R50). -/
theorem Framer.holds_nil {f : Framer} (h : f.cursor = 0) : f.holds [] := by
  simp [Framer.holds, h]

end Sys2Proof.Machine
end

