-- ==== Sys2Proof/Laws/PerInstr.lean ====
section
/-! SUPPORT. What is said of every command, one lemma per constructor of `Instr`. -/

namespace Sys2Proof.Laws.EncodeMatchesTable

/-- The command's word matches its own row of R104's match and mask table. -/
def Statement (i : Instr) : Prop := encode i &&& i.row.mask = i.row.value

theorem push (cb : Bit) (data : Byte) : Statement (.push cb data) := by
  revert cb data
  unfold Statement
  decide +kernel

theorem flush (cb : Bit) (noop : Byte) : Statement (.flush cb noop) := by
  revert cb noop
  unfold Statement
  decide +kernel

theorem compx : Statement .compx := by unfold Statement; decide

theorem compw : Statement .compw := by unfold Statement; decide

theorem compl : Statement .compl := by unfold Statement; decide

theorem revbits (byte : Byte) : Statement (.revbits byte) := by
  revert byte
  unfold Statement
  decide +kernel

theorem quant4 (byte : Byte) : Statement (.quant4 byte) := by
  revert byte
  unfold Statement
  decide +kernel

theorem sendr : Statement .sendr := by unfold Statement; decide

theorem sendf (cb : Bit) : Statement (.sendf cb) := by
  revert cb
  unfold Statement
  decide

end Sys2Proof.Laws.EncodeMatchesTable
end

