-- ==== Sys2Proof/Laws/Safety.lean ====
section
/-! SUPPORT. The checks and operands of the machine are those the claims name in terms of the registers. -/

namespace Sys2Proof.Machine

theorem State.fbSize_eq (s : State) : s.fbSize = s.framebufferBytes := by
  simp [State.framebufferBytes, State.fbSize, State.nibbleLayout, State.fbWidth, State.fbHeight]

theorem State.geomOK_iff_accepted (s : State) : s.geomOK = true ↔ s.geometryAccepted := by
  rw [State.geomOK_iff]
  simp [State.geometryAccepted, State.fbSize_eq, State.nibbleLayout, State.fbWidth, State.fbHeight]

theorem Regs.fbLayout_cases (r : Regs) : r.fbLayout = 0 ∨ r.fbLayout = 1 := by
  generalize r.fbLayout = v
  revert v
  decide

theorem State.depthOK_iff_accepted (s : State) : s.depthOK = true ↔ s.depthAccepted := by
  unfold State.depthOK State.depthAccepted State.nibbleLayout
  rcases s.reg.fbLayout_cases with h | h <;> simp [h]

theorem State.srcInRange_iff_accepted (s : State) : s.srcInRange = true ↔ s.rangeAccepted := by
  simp [State.srcInRange, State.rangeAccepted, State.stride, State.depthOne, State.srcBase, State.srcWidth,
    State.srcHeight, ceilDiv]

theorem State.compositeCheck_iff_accepted (s : State) : compositeCheck s = .none ↔ s.compositeAccepted := by
  rw [compositeCheck_eq_none_iff, s.geomOK_iff_accepted, s.depthOK_iff_accepted, s.srcInRange_iff_accepted]
  rfl

theorem State.serialBytes_eq (s : State) : s.serialBytes = s.bytesToSend := by
  unfold State.serialBytes State.bytesToSend
  rw [State.fbSize_eq]
  exact List.map_congr_left fun i _ => by simp [State.serialByte, State.nibbleLayout]

theorem State.pagePixel_eq (s : State) (x y : Nat) :
    s.pagePixel x y = bitAt (s.fbMem.read (s.pageAddr x y)) (y % 8) := (bitAt_eq_ofBool _ _).symm

theorem State.channelByte_eq (s : State) (x y ch : Nat) :
    s.channelByte x y ch = s.fbMem.read (s.nibbleAddr x y + ch) := rfl

/-- Several steps are one step and the rest. -/
theorem runSteps_succ {n : Nat} {s t : State} (h : step s = .next t) : runSteps (n + 1) s = runSteps n t := by
  rw [runSteps, h]

end Sys2Proof.Machine
end

