-- ==== Sys2Proof/Laws/Step.lean ====
section
/-! SUPPORT. What one step can do, by the host's next event, and what one command can do. -/

namespace Sys2Proof.Machine

/-- The codes of the table of registers find the registers (R32). -/
theorem regAt_regOffset (r : RegName) : regAt (regOffset r) = some r := by cases r <;> rfl

/-- A step with no event left changes nothing (R215). -/
theorem hostAction_nil {s : State} (h : s.host = []) : hostAction s = .still := by simp [hostAction, h]

theorem hostAction_resetAssert {s : State} {rest : List HostEvent} (h : s.host = .resetAssert :: rest) :
    hostAction s = .finished (s.accept rest).assertReset := by simp [hostAction, h]

theorem hostAction_resetRelease {s : State} {rest : List HostEvent} (h : s.host = .resetRelease :: rest) :
    hostAction s = .finished (s.accept rest).releaseReset := by simp [hostAction, h]

/-- An admitted access, outside reset and with no command waiting, is performed (R81). -/
theorem hostAction_access {s : State} {a : Access} {rest : List HostEvent} (h : s.host = .access a :: rest)
    (hr : s.inReset = false) (hp : s.phase = .idle) (ha : admitted s a = true) :
    hostAction s = accessAction (s.accept rest) a := by simp [hostAction, h, hr, hp, ha]

theorem hostAction_refused {s : State} {a : Access} {rest : List HostEvent} (h : s.host = .access a :: rest)
    (hr : s.inReset = false) (hp : s.phase = .idle) (ha : admitted s a = false) :
    hostAction s = .busError := by simp [hostAction, h, hr, hp, ha]

theorem hostAction_access_inReset {s : State} {a : Access} {rest : List HostEvent} (h : s.host = .access a :: rest)
    (hr : s.inReset = true) : hostAction s = .busError := by simp [hostAction, h, hr]

theorem hostAction_access_blocked {s : State} {a : Access} {rest : List HostEvent} (h : s.host = .access a :: rest)
    (hr : s.inReset = false) (hp : s.phase ≠ .idle) : hostAction s = .still := by simp [hostAction, h, hr, hp]

/-- A CMD write is always admitted (R34, R81). -/
theorem admitted_cmdWrite (s : State) (w : Word) : admitted s ⟨.reg, regOffset .cmd, 4, .write w⟩ = true := by
  simp [admitted, regOffset]

theorem hostAction_cmdWrite {s : State} {w : Word} {rest : List HostEvent} (h : s.host = cmdWrite w :: rest)
    (hr : s.inReset = false) (hp : s.phase = .idle) : hostAction s = .issue w (s.accept rest) := by
  rw [hostAction_access h hr hp (admitted_cmdWrite s w)]
  simp [accessAction, Access.toCmd]

theorem hostAction_cut {s : State} {w : Word} {rest : List HostEvent} (h : s.host = .commandCutByReset w :: rest)
    (hr : s.inReset = false) (hp : s.phase = .idle) : hostAction s = .finished (s.accept rest).assertReset := by
  simp [hostAction, h, hr, hp]

/-- Everything an admitted access can do (R33, R34, R76, R82). -/
theorem accessAction_cases (s : State) (a : Access) :
    (∃ v, accessAction s a = .finished (s.returnData v)) ∨
    (∃ w, a.dir = .write w ∧ accessAction s a = .issue w s) ∨
    (∃ v r, accessAction s a = .finished { s with reg := writeReg s.reg v r }) ∨
    accessAction s a = .finished s ∨
    (∃ v, a.space = .fbMem ∧ accessAction s a = .finished { s with fbMem := s.fbMem.write a.addr v }) ∨
    (∃ v, a.space = .srcMem ∧ accessAction s a = .finished { s with srcMem := s.srcMem.write a.addr v }) := by
  unfold accessAction
  split
  · exact .inl ⟨_, rfl⟩
  · rename_i v hv
    split
    · exact .inr (.inl ⟨v, hv, rfl⟩)
    · refine .inr (.inr ?_)
      unfold accessWrite
      cases h : a.space with
      | reg =>
        cases hr : regAt a.addr with
        | none => exact .inr (.inl (by simp))
        | some r => exact .inl ⟨v, r, by simp⟩
      | fbMem => exact .inr (.inr (.inl ⟨_, rfl, rfl⟩))
      | srcMem => exact .inr (.inr (.inr ⟨_, rfl, rfl⟩))

/-- A host register write changes no STATUS field, RESULT or anything that is not the named field (R33). -/
theorem writeReg_readOnly (r : Regs) (v : Word) (n : RegName) :
    (writeReg r v n).lastOk = r.lastOk ∧ (writeReg r v n).lastErr = r.lastErr ∧
      (writeReg r v n).result = r.result := by cases n <;> exact ⟨rfl, rfl, rfl⟩

/-- Everything one step can do, by the first event of the host. -/
theorem hostAction_cases (s : State) :
    hostAction s = .still ∨ hostAction s = .busError ∨
    (∃ rest, hostAction s = .finished (s.accept rest).assertReset) ∨
    (∃ rest, hostAction s = .finished (s.accept rest).releaseReset) ∨
    (∃ a rest, s.host = .access a :: rest ∧ s.inReset = false ∧ s.phase = .idle ∧ admitted s a = true ∧
      hostAction s = accessAction (s.accept rest) a) := by
  unfold hostAction
  cases hs : s.host with
  | nil => exact .inl rfl
  | cons e rest =>
    cases e with
    | resetAssert => exact .inr (.inr (.inl ⟨rest, rfl⟩))
    | resetRelease => exact .inr (.inr (.inr (.inl ⟨rest, rfl⟩)))
    | commandCutByReset w =>
      simp only
      split
      · exact .inr (.inl rfl)
      · split
        · exact .inl rfl
        · exact .inr (.inr (.inl ⟨rest, rfl⟩))
    | access a =>
      simp only
      split
      · exact .inr (.inl rfl)
      · rename_i hr
        split
        · exact .inl rfl
        · rename_i hp
          split
          · rename_i ha
            exact .inr (.inr (.inr (.inr ⟨a, rest, rfl, by simpa using hr, by simpa using hp, ha, rfl⟩)))
          · exact .inr (.inl rfl)

/-- The step of an admitted access that completes (R81). -/
theorem step_access {s t : State} {a : Access} {rest : List HostEvent} (h : s.host = .access a :: rest)
    (hr : s.inReset = false) (hp : s.phase = .idle) (ha : admitted s a = true)
    (hf : accessAction (s.accept rest) a = .finished t) : step s = .next t := by
  simp [step, hostAction_access h hr hp ha, hf]

/-- A 32-bit access to a register is always admitted (R81). -/
theorem admitted_reg (s : State) (n : RegName) (d : Direction) : admitted s ⟨.reg, regOffset n, 4, d⟩ = true := by
  cases n <;> simp [admitted, regOffset]

/-- The step of a register write other than to CMD (R33). -/
theorem step_regWrite {s : State} {n : RegName} {v : Word} {rest : List HostEvent}
    (h : s.host = .access ⟨.reg, regOffset n, 4, .write v⟩ :: rest) (hr : s.inReset = false) (hp : s.phase = .idle)
    (hn : n ≠ .cmd) :
    step s = .next { s with host := rest, readData := none, reg := writeReg s.reg v n } := by
  refine step_access h hr hp (admitted_reg s n _) ?_
  cases n <;> first | exact absurd rfl hn | rfl

/-- The step of a register read (R33). -/
theorem step_regRead {s : State} {n : RegName} {rest : List HostEvent}
    (h : s.host = .access ⟨.reg, regOffset n, 4, .read⟩ :: rest) (hr : s.inReset = false) (hp : s.phase = .idle) :
    step s = .next { s with host := rest, readData := some (readReg s n) } := by
  refine step_access h hr hp (admitted_reg s n _) ?_
  cases n <;> rfl

/-- The step of a CMD write runs the command word (R34). -/
theorem step_cmdWrite {s : State} {w : Word} {rest : List HostEvent} (h : s.host = cmdWrite w :: rest)
    (hr : s.inReset = false) (hp : s.phase = .idle) :
    step s = runWord w { s with host := rest, readData := none } := by
  simp [step, hostAction_cmdWrite h hr hp, State.accept]

/-- No command faults and none is refused (R200, R216). -/
theorem exec_next (i : Instr) (s : State) : ∃ t, exec i s = .next t := by
  have he : ∀ p, ∃ t, endTransport p = .next t := fun p => by
    rcases endTransport_cases p with h | h | h <;> exact ⟨_, h⟩
  have hc : ∀ m, ∃ t, composite m s = .next t := fun m => by
    rcases composite_cases m s with ⟨_, h⟩ | ⟨_, h⟩ <;> exact ⟨_, h⟩
  cases i with
  | push cb d => exact he _
  | flush cb d => exact he _
  | compx => exact hc _
  | compw => exact hc _
  | compl => exact hc _
  | revbits b => exact ⟨_, rfl⟩
  | quant4 b => exact ⟨_, rfl⟩
  | sendr =>
    show ∃ t, execSendr s = .next t
    unfold execSendr
    split
    · exact he _
    · exact ⟨_, rfl⟩
  | sendf cb =>
    show ∃ t, execSendf cb s = .next t
    unfold execSendf
    split
    · exact he _
    · exact ⟨_, rfl⟩

end Sys2Proof.Machine
end

