-- ==== Sys2Proof/Tests/Slice0.lean ====
section
/-! SUPPORT. Small checks of the model against the worked values of 95_test_vectors.md and against words written out from
the encoding of 30_encoding.md R101 and R104; and, for every obligation with hypotheses, a witness that meets them. -/

namespace Sys2Proof.Tests

open Sys2Proof.Machine

/-! ### WellFormed refuses each ill-formed statement (R108, R109) -/

theorem test_wf_refuses_control_bit_2 : (Statement.push 2 0).wellFormed = false := by decide
theorem test_wf_refuses_data_256 : (Statement.push 0 256).wellFormed = false := by decide
theorem test_wf_refuses_flush_control_bit : (Statement.flush 2 0).wellFormed = false := by decide
theorem test_wf_refuses_flush_noop : (Statement.flush 0 256).wellFormed = false := by decide
theorem test_wf_refuses_revbits_256 : (Statement.revbits 256).wellFormed = false := by decide
theorem test_wf_refuses_quant4_256 : (Statement.quant4 256).wellFormed = false := by decide
theorem test_wf_refuses_sendf_2 : (Statement.sendf 2).wellFormed = false := by decide
theorem test_wf_refuses_wr_33_bits : (Statement.wr .srcBase 0x100000000).wellFormed = false := by decide
theorem test_wf_refuses_sb_fb_256 : (Statement.sbFb 0 256).wellFormed = false := by decide
theorem test_wf_refuses_sb_src_256 : (Statement.sbSrc 0 256).wellFormed = false := by decide
theorem test_wf_refuses_layout_2 : (Statement.setfb 2 8 8).wellFormed = false := by decide
theorem test_wf_refuses_width_65536 : (Statement.setfb 0 65536 8).wellFormed = false := by decide
theorem test_wf_refuses_depth_256 : (Statement.setsrc 0 1 1 256).wellFormed = false := by decide
theorem test_wf_refuses_offset_32768 : (Statement.setoff 32768 0).wellFormed = false := by decide
theorem test_wf_refuses_offset_below : (Statement.setoff 0 (-32769)).wellFormed = false := by decide
theorem test_wf_refuses_channel_16 : (Statement.setfg 1 16 0 0).wellFormed = false := by decide
theorem test_wf_refuses_mono_2 : (Statement.setbg 2 0 0 0).wellFormed = false := by decide
theorem test_wf_refuses_pushseq_256 : (Statement.pushseq 0 [1, 256]).wellFormed = false := by decide
theorem test_wf_accepts_offset_bounds : (Statement.setoff (-32768) 32767).wellFormed = true := by decide
theorem test_wf_accepts_command : (Instr.push 1 0xFF).wellFormed = true := by decide

/-! ### Decoding: words written out as OPC RSVH FUNC RSVL CB DATA (R101, R104) -/

theorem test_decode_push : decode 0b0001_000000000000_0000_000_1_11111111 = .command (.push 1 0xFF) := by decide
theorem test_decode_flush : decode 0b0010_000000000000_0000_000_1_11100011 = .command (.flush 1 0xE3) := by decide
theorem test_decode_compx : decode 0b0011_000000000000_0000_000_0_00000000 = .command .compx := by decide
theorem test_decode_compw : decode 0b0011_000000000000_0001_000_0_00000000 = .command .compw := by decide
theorem test_decode_compl : decode 0b0011_000000000000_0010_000_0_00000000 = .command .compl := by decide
theorem test_decode_revbits : decode 0b0100_000000000000_0000_000_0_10110000 = .command (.revbits 0xB0) := by decide
theorem test_decode_quant4 : decode 0b0100_000000000000_0001_000_0_10101011 = .command (.quant4 0xAB) := by decide
theorem test_decode_sendr : decode 0b0101_000000000000_0000_000_0_00000000 = .command .sendr := by decide
theorem test_decode_sendf : decode 0b0101_000000000000_0001_000_1_00000000 = .command (.sendf 1) := by decide
theorem test_encode_push : encode (.push 0 0x2A) = 0x1000002A := by decide
theorem test_encode_sendf : encode (.sendf 1) = 0x50001100 := by decide

/-- The illegal words of 95_test_vectors.md 2.1. -/
theorem test_decode_illegal :
    ([0x00000000, 0x60000000, 0xF0000000, 0x10010000, 0x10000200, 0x10001000, 0x30003000, 0x30000001, 0x30000100,
      0x40000100, 0x40002000, 0x50000100, 0x50001001, 0x50002000] : List Word).all
      (fun w => match decode w with | .illegal _ => true | .command _ => false) = true := by decide

theorem test_decodeTableWord : decodeTableWord 32 0x400000B0 = some (.revbits 0xB0) := by decide
theorem test_decodeTableWord_illegal : decodeTableWord 32 0x60000000 = none := by decide

/-! ### States -/

/-- The reset state with memories of 64 bytes (95_test_vectors.md). -/
def small : State := { State.reset with fbMem := ⟨64, 0, []⟩, srcMem := ⟨64, 1, []⟩ }

/-- A memory of 64 bytes whose first bytes are listed. -/
def bytesFrom (draw : Nat) (bytes : List Byte) : Memory := ⟨64, draw, List.zip (List.range 64) bytes⟩

/-- The registers of setup S1 of 95_test_vectors.md 2.3. -/
def regsS1 : Regs :=
  { Regs.reset with fbW := 8, fbH := 8, srcW := 2, srcH := 2, srcDepth := 1, xoff := 3, yoff := 2 }

/-- Setup S1 with FBMEM[0..7] all `v`. -/
def s1 (v : Byte) : State :=
  { small with reg := regsS1, fbMem := bytesFrom 0 (List.replicate 8 v), srcMem := bytesFrom 1 [1, 3] }

/-- Setup S2 with FBMEM[0..5] as given. -/
def s2 (before : List Byte) : State :=
  { small with
    reg := { Regs.reset with
      fbLayout := 1, fbW := 2, fbH := 1, srcBase := 4, srcW := 1, srcH := 1, srcDepth := 32, xoff := 1
      bg := ⟨0, 3, 4, 5⟩ }
    fbMem := bytesFrom 0 before
    srcMem := bytesFrom 1 [0, 0, 0, 0, 0xAB, 0x12, 0xFF, 0] }

/-- Some field of the state a command ends in. -/
def fieldAfter {α : Type} (o : Host.Outcome State Fault Refusal) (f : State → α) : Option α :=
  match o with
  | .next t => some (f t)
  | .fault _ => none
  | .refused _ => none

/-- The step ends with a bus error. -/
def endsWithBusError (o : Host.Outcome State Fault Refusal) : Bool :=
  match o with
  | .next _ => false
  | .fault .busError => true
  | .refused _ => false

/-- The first `n` bytes of FBMEM and STATUS after a command. -/
def frameAfter (n : Nat) (o : Host.Outcome State Fault Refusal) : Option (List Byte × Word) :=
  fieldAfter o fun t => ((List.range n).map t.fbMem.read, readReg t .status)

/-- The log, FRAMER and STATUS after a command. -/
def sentAfter (o : Host.Outcome State Fault Refusal) : Option (List Transaction × Word × Word) :=
  fieldAfter o fun t => (t.log, readReg t .framer, readReg t .status)

/-! ### Commands, against 95_test_vectors.md 2.2 to 2.5 -/

/-- F1. -/
theorem test_push_first : sentAfter (exec (.push 1 0xA5) small) = some ([], 0x0000A501, 1) := by decide

/-- The last push of F2, from the frame of F3. -/
theorem test_push_last :
    sentAfter (exec (.push 1 0xAA)
      { small with
        fr := ⟨7, 0x55, #v[0x15, 0x40, 0x60, 0x4F, 0xFC, 0x00, 0x02, 0, 0]⟩
        answers := [.success] })
      = some ([⟨[0x15, 0x40, 0x60, 0x4F, 0xFC, 0x00, 0x02, 0xAB, 0xAA], true⟩], 0, 1) := by decide

/-- F5, from the framer after its three pushes. -/
theorem test_flush_pads :
    sentAfter (exec (.flush 1 0xE3)
      { small with fr := ⟨3, 0x02, #v[0x15, 0x40, 0x60, 0, 0, 0, 0, 0, 0]⟩, answers := [.success] })
      = some ([⟨[0x15, 0x40, 0x60, 0x5E, 0x3F, 0x1F, 0x8F, 0xC7, 0xE3], true⟩], 0, 1) := by decide

/-- F6. -/
theorem test_flush_empty : sentAfter (exec (.flush 0 0) small) = some ([], 0, 1) := by decide

/-- N2. -/
theorem test_compx_nibble :
    frameAfter 6 (exec .compx (s2 (List.replicate 6 0xF5))) = some ([0xF5, 0xF5, 0xF5, 0xFF, 0xF4, 0xFA], 1) := by
  decide +kernel

/-- X3. -/
theorem test_compw_page :
    frameAfter 8 (exec .compw (s1 0xFF)) = some ([0, 0, 0, 0x0C, 0x08, 0, 0, 0], 1) := by decide +kernel

/-- N1. -/
theorem test_compw_nibble :
    frameAfter 6 (exec .compw (s2 (List.replicate 6 0x77))) = some ([3, 4, 5, 0xA, 1, 0xF], 1) := by decide +kernel

/-- X7: the source clipped at the top left, offsets of -1. -/
theorem test_compl_clipped :
    frameAfter 8 (exec .compl { s1 0 with reg := { regsS1 with xoff := 0xFFFF, yoff := 0xFFFF } })
      = some ([1, 0, 0, 0, 0, 0, 0, 0], 1) := by decide +kernel

/-- E7: the geometry is checked before the depth. -/
theorem test_composite_geometry_first :
    fieldAfter (exec .compx { s1 0 with reg := { regsS1 with fbH := 72, srcDepth := 8 } }) (readReg · .status)
      = some 0x20 := by decide

/-- E5: the source footprint ends one byte past SRCMEM. -/
theorem test_composite_range :
    fieldAfter (exec .compl { s1 0 with reg := { regsS1 with srcW := 9, srcH := 32, srcBase := 1 } })
      (readReg · .status) = some 0x40 := by decide

/-- The source's worked example (95_test_vectors.md 1.1). -/
theorem test_revbits :
    fieldAfter (exec (.revbits 0xB0) small) (fun t => (readReg t .result, readReg t .status)) = some (0x0D, 1) := by
  decide

/-- QUANT4 0xAB of 2.4. -/
theorem test_quant4 :
    fieldAfter (exec (.quant4 0xAB) small) (fun t => (readReg t .result, readReg t .status)) = some (0x0A, 1) := by
  decide

/-- S2a: SENDR masks the high nibbles. -/
theorem test_sendr_nibble :
    sentAfter (exec .sendr { s2 [0xF5, 0xF5, 0xF5, 0xFF, 0xF4, 0xFA] with answers := [.success] })
      = some ([⟨[5, 5, 5, 0xF, 4, 0xA], true⟩], 0, 1) := by decide +kernel

/-- S1b. -/
theorem test_sendf_frame :
    sentAfter (exec (.sendf 1)
      { s1 0 with fbMem := bytesFrom 0 [0, 0, 0, 0x0C, 0x08, 0, 0, 0], answers := [.success] })
      = some ([⟨[0x80, 0x40, 0x20, 0x10, 0xC8, 0x44, 0x02, 0x01, 0x00], true⟩], 0, 1) := by decide +kernel

/-- S3: the first frame fails and the second is not attempted. -/
theorem test_sendf_stops :
    sentAfter (exec (.sendf 1)
      { s1 0 with
        reg := { regsS1 with fbW := 16 }
        fbMem := bytesFrom 0 [0, 1, 2, 3, 4, 5, 6, 7, 8, 9, 10, 11, 12, 13, 14, 15]
        answers := [.failure, .success] })
      = some ([⟨[0x80, 0x40, 0x60, 0x50, 0x38, 0x24, 0x16, 0x0D, 0x07], false⟩], 0, 0x50) := by decide +kernel

/-- A transport that never answers keeps the command waiting: STATUS and the log stay (R236). -/
theorem test_sendr_silent :
    fieldAfter (exec .sendr { s1 0 with answers := [.silence], log := [] })
      (fun t => (t.phase, t.log, readReg t .status)) = some (.waiting (List.replicate 8 0), [], 1) := by decide +kernel

/-! ### Steps, registers, reset -/

/-- The word step runs is the one withFetchWord placed. -/
theorem test_step_runs_fetch_word :
    fieldAfter (step (State.reset.withFetchWord 32 0x400000B0)) (fun t => (readReg t .result, t.host))
      = some (0x0D, []) := by decide

/-- P5, statement 1: a CMD write of 0. -/
theorem test_step_illegal : fieldAfter (step (small.withFetchWord 32 0)) (readReg · .status) = some 0x10 := by decide

/-- FG reads back its field bits only (R47). -/
theorem test_step_fg :
    fieldAfter (runSteps 2
      { small with
        host := [.access ⟨.reg, 0x34, 4, .write 0xFFFFFFFF⟩, .access ⟨.reg, 0x34, 4, .read⟩] }) State.readData
      = some (some 0x00010FFF) := by decide

/-- A two-byte memory access and a misaligned REG access are refused (R81). -/
theorem test_step_bus_error :
    endsWithBusError (step { small with host := [.access ⟨.fbMem, 0, 2, .read⟩] }) = true ∧
      endsWithBusError (step { small with host := [.access ⟨.reg, 2, 4, .read⟩] }) = true := by decide

/-- FG after a reset (R59). -/
theorem test_reset_event :
    fieldAfter (runSteps 2 { s1 0 with host := [.resetAssert, .resetRelease] })
      (fun t => (readReg t .fg, readReg t .fbW, t.fbMem.cells.isEmpty, t.inReset))
      = some (0x00010FFF, 0, true, false) := by decide

/-! ### The assembler (R108, R109) -/

theorem test_read_push : readLine "PUSH 1, 0xA5 ; first".toList = .statement (.push 1 0xA5) := by decide +kernel
theorem test_read_long_form : readLine "COMPOSITE.OVERWRITE".toList = .statement .compw := by decide +kernel
theorem test_read_out_of_range : readLine "REVBITS 256".toList = .error := by decide +kernel
theorem test_read_comment : readLine "  ; nothing".toList = .blank := by decide +kernel
theorem test_read_wr : readLine "WR FB_W, 0b1000".toList = .statement (.wr .fbW 8) := by decide +kernel
theorem test_assemble_setoff :
    assemble (.setoff (-1) 2) = some
      [.access ⟨.reg, 0x2C, 4, .write 0xFFFF⟩, .access ⟨.reg, 0x30, 4, .write 2⟩] := by decide
theorem test_assemble_setbg :
    assemble (.setbg 0 3 4 5) = some [.access ⟨.reg, 0x38, 4, .write 0x00000345⟩] := by decide
theorem test_assemble_fillbg :
    assemble .fillbg = some
      [.access ⟨.reg, 0x1C, 4, .write 0⟩, .access ⟨.reg, 0x20, 4, .write 0⟩, .access ⟨.reg, 0x24, 4, .write 0⟩,
       .access ⟨.reg, 0x28, 4, .write 1⟩, cmdWrite 0x30001000] := by decide
theorem test_assemble_pushseq :
    assemble (.pushseq 1 [0xA5, 0]) = some [cmdWrite 0x100001A5, cmdWrite 0x10000100] := by decide

/-! ### Witnesses: for every obligation with hypotheses, concrete states and operands that meet them -/

/-- The state at a cursor with a settled list of answers. -/
def atCursor (c : BitVec 3) (answers : List TransportAnswer) : State :=
  { small with fr := ⟨c, 0x55, Vector.replicate 9 0⟩, answers := answers }

/-- The state whose host does these events next. -/
def withHost (s : State) (events : List HostEvent) : State := { s with host := events }

/-- The smallest framebuffer of the page layout, filling FBMEM. -/
def tinyPage : State :=
  { small with reg := { Regs.reset with fbW := 1, fbH := 8, srcDepth := 1 }, fbMem := ⟨1, 0, [(0, 0xA5)]⟩ }

/-- The smallest framebuffer of the nibble layout, filling FBMEM, with a depth-32 source that fills SRCMEM. -/
def tinyNibble : State :=
  { small with
    reg := { Regs.reset with fbLayout := 1, fbW := 1, fbH := 1, srcW := 1, srcH := 1, srcDepth := 32 }
    fbMem := ⟨3, 0, [(0, 1), (1, 2), (2, 0xF3)]⟩
    srcMem := ⟨4, 1, [(0, 0x10), (1, 0x20), (2, 0x30), (3, 0)]⟩ }

/-- Eight words to push. -/
def eightWords : List (Bit × Byte) :=
  [(0, 0x2A), (1, 0x01), (1, 0x02), (0, 0xFF), (1, 0x80), (0, 0x00), (1, 0x55), (1, 0xAA)]

theorem witness_DecodeOfEncodeIsTheCommand : (Instr.sendf 1).wellFormed = true := by decide

theorem witness_EncodeOfDecodeIsTheWord : decode 0x50001100 = .command (.sendf 1) := by decide

theorem witness_DecoderAgreesWithTheMatchTable :
    Instr.row (.sendf 0) ∈ opcodeTable ∧ (Instr.row (.sendf 0)).matchesWord 0x50001100 = true := by decide

theorem witness_NoWordMatchesTwoRows :
    Instr.row .compx ∈ opcodeTable ∧ (Instr.row .compx).matchesWord 0x30000000 = true := by decide

theorem witness_IllegalWordsChangeStatusOnly_unmatched :
    ∀ r ∈ opcodeTable, r.matchesWord 0x00000000 = false := by decide

theorem witness_IllegalWordsChangeStatusOnly_listed :
    opcField 0x00000000 = 0 ∧ 6 ≤ (opcField 0x60000000).toNat ∧ rsvhField 0x10010000 ≠ 0 ∧ rsvlField 0x10000200 ≠ 0 ∧
    (opcField 0x20001000 = 2 ∧ funcField 0x20001000 ≠ 0) ∧
    (opcField 0x30003000 = 3 ∧ 3 ≤ (funcField 0x30003000).toNat) ∧
    (opcField 0x50002000 = 5 ∧ 2 ≤ (funcField 0x50002000).toNat) ∧
    (opcField 0x30000001 = 3 ∧ dataField 0x30000001 ≠ 0) ∧ (opcField 0x40000100 = 4 ∧ cbField 0x40000100 ≠ 0) ∧
    (opcField 0x50000100 = 5 ∧ funcField 0x50000100 = 0 ∧ cbField 0x50000100 ≠ 0) := by decide

theorem witness_StepRunsTheDecodedCommand :
    (withHost small [.access ⟨.reg, 0, 4, .write 0x400000B0⟩]).host = [.access ⟨.reg, 0, 4, .write 0x400000B0⟩] ∧
    (withHost small [.access ⟨.reg, 0, 4, .write 0x400000B0⟩]).inReset = false ∧
    (withHost small [.access ⟨.reg, 0, 4, .write 0x400000B0⟩]).phase = .idle ∧
    decode 0x400000B0 = .command (.revbits 0xB0) := by decide

theorem witness_StepOfAnIllegalWord :
    (withHost small [.access ⟨.reg, 0, 4, .write 0⟩]).host = [.access ⟨.reg, 0, 4, .write 0⟩] ∧
    small.inReset = false ∧ small.phase = .idle ∧ ∀ i, decode 0 ≠ .command i :=
  ⟨rfl, rfl, rfl, fun i => by rw [show decode 0 = .illegal .opcode by decide]; exact nofun⟩

theorem witness_IdleEngineKeepsItsState : State.reset.host = [] := by decide

theorem witness_UtilitiesWriteResultAndStatusOnly : ∃ t, exec (.revbits 0xB0) small = .next t := ⟨_, rfl⟩

theorem witness_PushBelowSevenStoresOneByte :
    (atCursor 0 []).fr.cursor ≠ 7 ∧ (atCursor 6 []).fr.cursor ≠ 7 := by decide

theorem witness_PushAtSevenTransmitsTheFrame :
    (atCursor 7 [.success]).fr.cursor = 7 ∧ (atCursor 7 [.success]).answerAt 0 = (if true then .success else .failure) ∧
    (atCursor 7 [.failure]).answerAt 0 = (if false then .success else .failure) := by decide

theorem witness_FlushAtCursorZeroDoesNothing : (atCursor 0 []).fr.cursor = 0 := by decide

theorem witness_FlushPadsAndSendsTheFrame :
    (atCursor 1 [.success]).fr.cursor ≠ 0 ∧ (atCursor 1 [.success]).answerAt 0 = (if true then .success else .failure) ∧
    (atCursor 7 [.failure]).fr.cursor ≠ 0 ∧
    (atCursor 7 [.failure]).answerAt 0 = (if false then .success else .failure) := by decide

theorem witness_FlushIsThePaddingPushes :
    (atCursor 1 [.failure]).fr.cursor ≠ 0 ∧ (atCursor 1 [.failure]).phase = .idle ∧
    (atCursor 1 [.failure]).answerAt 0 ≠ .silence := by decide

theorem witness_EightWordsMakeOneFrame :
    (atCursor 0 [.success]).fr.cursor = 0 ∧ (atCursor 0 [.success]).phase = .idle ∧
    (atCursor 0 [.success]).answerAt 0 = (if true then .success else .failure) ∧ eightWords.length = 8 ∧
    (1 ≤ (eightWords.take 1).length ∧ (eightWords.take 1).length ≤ 7) ∧
    (1 ≤ (eightWords.take 7).length ∧ (eightWords.take 7).length ≤ 7) := by decide

theorem witness_FrameIsTheBitStreamOfItsWords :
    (atCursor 0 [.success]).fr.cursor = 0 ∧ (atCursor 0 [.success]).phase = .idle ∧
    (atCursor 0 [.success]).answerAt 0 = (if true then .success else .failure) ∧ eightWords.length = 8 ∧
    ∃ t, runCommands (pushCommands eightWords) (atCursor 0 [.success]) = .next t :=
  ⟨rfl, rfl, rfl, rfl, _, rfl⟩

theorem witness_StaleFrameBytesAreNeverSeen :
    (atCursor 2 []).agree { atCursor 2 [] with fr := ⟨2, 0x55, #v[0, 0, 1, 2, 3, 4, 5, 6, 7]⟩ } := by
  unfold State.agree Framer.agree
  decide

theorem witness_OtherCommandsLeaveTheFramer :
    (∀ cb d, Instr.compx ≠ .push cb d) ∧ (∀ cb d, Instr.compx ≠ .flush cb d) ∧ ∀ cb, Instr.compx ≠ .sendf cb :=
  ⟨nofun, nofun, nofun⟩

/-- The page layout at its smallest, its fbSize equal to FB_MEM_BYTES. -/
theorem witness_geometryAccepted_page : tinyPage.geometryAccepted := by
  unfold State.geometryAccepted State.framebufferBytes
  decide

/-- The nibble layout at its smallest, its fbSize equal to FB_MEM_BYTES. -/
theorem witness_geometryAccepted_nibble : tinyNibble.geometryAccepted := by
  unfold State.geometryAccepted State.framebufferBytes
  decide

theorem witness_SendrSendsTheFramebufferOnce :
    State.geometryAccepted { tinyNibble with answers := [.success] } ∧
    State.answerAt { tinyNibble with answers := [.success] } 0 = (if true then .success else .failure) :=
  ⟨witness_geometryAccepted_nibble, rfl⟩

theorem witness_SendfPushesEveryByte :
    State.geometryAccepted { s1 0 with answers := [.success] } ∧ State.phase { s1 0 with answers := [.success] } = .idle ∧
    ((s1 0).fr.cursor.toNat + (s1 0).framebufferBytes) / 8 = 1 ∧
    ∀ k, k < ((s1 0).fr.cursor.toNat + (s1 0).framebufferBytes) / 8 →
      State.answerAt { s1 0 with answers := [.success] } k = .success := by
  unfold State.geometryAccepted State.framebufferBytes
  decide

/-- Two frames: the first to fail is the last of them. -/
theorem witness_SendfStopsAtTheFirstFailure :
    State.geometryAccepted { s1 0 with reg := { regsS1 with fbW := 16 }, answers := [.success, .failure] } ∧
    1 < (State.framebufferBytes { s1 0 with reg := { regsS1 with fbW := 16 } }) / 8 ∧
    (∀ k, k < 1 → State.answerAt { s1 0 with answers := [.success, .failure] } k = .success) ∧
    State.answerAt { s1 0 with answers := [.success, .failure] } 1 = .failure := by
  unfold State.geometryAccepted State.framebufferBytes
  decide

/-- Each way a geometry is refused: no width, no height, a height that is no whole page, one byte too many. -/
theorem witness_SendsRefuseABadGeometry :
    ¬ State.geometryAccepted { tinyPage with reg := { tinyPage.reg with fbW := 0 } } ∧
    ¬ State.geometryAccepted { tinyNibble with reg := { tinyNibble.reg with fbH := 0 } } ∧
    ¬ State.geometryAccepted { s1 0 with reg := { regsS1 with fbH := 12 } } ∧
    ¬ State.geometryAccepted { tinyNibble with fbMem := ⟨2, 0, []⟩ } := by
  unfold State.geometryAccepted State.framebufferBytes
  decide

theorem witness_CompositeRefusalsInOrder :
    ¬ small.geometryAccepted ∧
    ((s1 0).geometryAccepted ∧ ¬ State.depthAccepted { s1 0 with reg := { regsS1 with srcDepth := 32 } } ∧
      ¬ State.depthAccepted { s1 0 with reg := { regsS1 with srcDepth := 8 } }) ∧
    ((s1 0).geometryAccepted ∧ (s1 0).depthAccepted ∧
      ¬ State.rangeAccepted { s1 0 with reg := { regsS1 with srcW := 9, srcH := 32, srcBase := 1 } }) := by
  unfold State.geometryAccepted State.depthAccepted State.rangeAccepted State.framebufferBytes
  decide

/-- For CompxBlendsEveryPixel, CompwRepaintsEveryPixel, ComplPaintsSetPixels, ExclusiveTwiceRestoresTheFramebuffer and
BlendModesAgreeWhereTheyShould: the page layout, with a pixel of it. -/
theorem witness_compositeAccepted_page :
    (s1 0).compositeAccepted ∧ (s1 0).reg.fbLayout = 0 ∧ 7 < (s1 0).reg.fbW.toNat ∧ 7 < (s1 0).reg.fbH.toNat := by
  unfold State.compositeAccepted State.geometryAccepted State.depthAccepted State.rangeAccepted State.framebufferBytes
  decide

/-- For the same five: the nibble layout, both memories filled exactly. -/
theorem witness_compositeAccepted_nibble :
    tinyNibble.compositeAccepted ∧ tinyNibble.reg.fbLayout = 1 ∧ 0 < tinyNibble.reg.fbW.toNat ∧
    0 < tinyNibble.reg.fbH.toNat := by
  unfold State.compositeAccepted State.geometryAccepted State.depthAccepted State.rangeAccepted State.framebufferBytes
  decide

/-- Out of bounds on the left and just past the right edge; in bounds at the last source pixel, for either depth. -/
theorem witness_SampleFollowsTheSource :
    ((2 : Int) - (s1 0).reg.xoff.toInt = -1 ∧ (5 : Int) - (s1 0).reg.xoff.toInt = (s1 0).reg.srcW.toNat) ∧
    ((4 : Int) - (s1 0).reg.xoff.toInt = (1 : Nat) ∧ (3 : Int) - (s1 0).reg.yoff.toInt = (1 : Nat) ∧
      1 < (s1 0).reg.srcW.toNat ∧ 1 < (s1 0).reg.srcH.toNat ∧ (s1 0).reg.srcDepth = 1) ∧
    ((0 : Int) - tinyNibble.reg.xoff.toInt = (0 : Nat) ∧ (0 : Int) - tinyNibble.reg.yoff.toInt = (0 : Nat) ∧
      0 < tinyNibble.reg.srcW.toNat ∧ 0 < tinyNibble.reg.srcH.toNat ∧ tinyNibble.reg.srcDepth = 32) := by
  decide

/-- For OverwriteOfAnUnsetSourceFillsBackground and OverlayOfAnUnsetSourceChangesNothing: an empty source. -/
theorem witness_sourceUnset : tinyPage.compositeAccepted ∧ tinyPage.sourceUnset := by
  constructor
  · unfold State.compositeAccepted State.geometryAccepted State.depthAccepted State.rangeAccepted State.framebufferBytes
    decide
  · intro x y _ _
    have h : ∀ n : Int, ¬ (0 ≤ n ∧ n < 0) := fun n h => by omega
    have hw : tinyPage.srcWidth = 0 := rfl
    unfold State.sample State.sourceCoord
    rw [hw]
    simp only
    rw [if_neg (fun hc => h _ ⟨hc.1, by simpa using hc.2.1⟩)]

/-- For FillbgPaintsTheBackground: either layout, with an access left after the five. -/
theorem witness_FillbgPaintsTheBackground :
    ∃ evs, assemble .fillbg = some evs ∧
      (withHost tinyPage (evs ++ [.resetAssert])).host = evs ++ [.resetAssert] ∧
      tinyPage.inReset = false ∧ tinyPage.phase = .idle ∧ tinyPage.geometryAccepted ∧ tinyPage.reg.fbLayout = 0 ∧
      (withHost tinyNibble (evs ++ [.resetAssert])).host = evs ++ [.resetAssert] ∧
      tinyNibble.inReset = false ∧ tinyNibble.phase = .idle ∧ tinyNibble.geometryAccepted ∧
      tinyNibble.reg.fbLayout = 1 :=
  ⟨_, test_assemble_fillbg, rfl, rfl, rfl, witness_geometryAccepted_page, rfl, rfl, rfl, rfl,
    witness_geometryAccepted_nibble, rfl⟩

theorem witness_PseudoInstructionsFillTheirFields :
    (assemble (.setfb 1 65535 0)).isSome = true ∧ (assemble (.setsrc 0xFFFFFFFF 65535 0 255)).isSome = true ∧
    (assemble (.setoff (-32768) 32767)).isSome = true ∧
    (assemble (.setfg 1 15 0 15)).isSome = true ∧ (assemble (.setbg 0 0 15 15)).isSome = true ∧
    small.inReset = false ∧ small.phase = .idle := by decide

/-- Two data bytes, and none. -/
theorem witness_PushseqIsItsPushes :
    assemble (.pushseq 1 [0xA5, 0]) = some [cmdWrite 0x100001A5, cmdWrite 0x10000100] ∧
    (withHost small [cmdWrite 0x100001A5, cmdWrite 0x10000100]).host = [cmdWrite 0x100001A5, cmdWrite 0x10000100] ∧
    assemble (.pushseq 1 []) = some [] ∧ small.host = [] ∧ small.inReset = false ∧ small.phase = .idle := by decide

/-- The first and the last read-write register. -/
theorem witness_WrittenRegistersReadBack :
    (RegName.fbLayout, 0x10, (0x00000001 : Word)) ∈ readWriteRegs ∧
    (RegName.bg, 0x38, (0x00010FFF : Word)) ∈ readWriteRegs ∧ small.inReset = false ∧ small.phase = .idle ∧
    (withHost small [.access ⟨.reg, 0x38, 4, .write 0xFFFFFFFF⟩, .access ⟨.reg, 0x38, 4, .read⟩]).host =
      [.access ⟨.reg, 0x38, 4, .write 0xFFFFFFFF⟩, .access ⟨.reg, 0x38, 4, .read⟩] := by decide

/-- The last register, the first and last reserved offsets, the last byte of each memory. -/
theorem witness_ReadsHaveNoSideEffects :
    small.inReset = false ∧ small.phase = .idle ∧
    (∀ addr, addr ∈ [0, 0x38, 0x3C, 0xFC] → addr % 4 = 0 ∧ addr < 256) ∧ regOffset .bg = 0x38 ∧
    63 < small.fbMem.size ∧ 63 < small.srcMem.size := by decide

theorem witness_ReadOnlyWritesAreIgnored :
    small.inReset = false ∧ small.phase = .idle ∧
    ∀ addr, addr ∈ [4, 8, 12, 0x3C, 0xFC] →
      addr = 4 ∨ addr = 8 ∨ addr = 12 ∨ (0x3C ≤ addr ∧ addr < 256 ∧ addr % 4 = 0) := by decide

theorem witness_HostMemoryWritesAreRead :
    (withHost small [.access ⟨.fbMem, 63, 1, .write 0xAB⟩]).host = [.access ⟨.fbMem, 63, 1, .write 0xAB⟩] ∧
    63 < small.fbMem.size ∧
    (withHost small [.access ⟨.srcMem, 63, 1, .write 0xAB⟩]).host = [.access ⟨.srcMem, 63, 1, .write 0xAB⟩] ∧
    63 < small.srcMem.size ∧ small.inReset = false ∧ small.phase = .idle := by decide

/-- A byte access, a misaligned one and one just past the block; a word access and one just past the memory. -/
theorem witness_BadAccessesEndWithABusError :
    (∀ a, a ∈ ([⟨.reg, 0, 1, .read⟩, ⟨.reg, 2, 4, .read⟩, ⟨.reg, 256, 4, .read⟩] : List Access) →
      a.space = .reg ∧ (a.bytes ≠ 4 ∨ a.addr % 4 ≠ 0 ∨ 256 ≤ a.addr)) ∧
    (∀ a, a ∈ ([⟨.fbMem, 0, 4, .read⟩, ⟨.fbMem, 64, 1, .write 0⟩] : List Access) →
      a.space = .fbMem ∧ (a.bytes ≠ 1 ∨ small.fbMem.size ≤ a.addr)) ∧
    (∀ a, a ∈ ([⟨.srcMem, 0, 2, .read⟩, ⟨.srcMem, 64, 1, .read⟩] : List Access) →
      a.space = .srcMem ∧ (a.bytes ≠ 1 ∨ small.srcMem.size ≤ a.addr)) ∧ small.phase = .idle := by decide

theorem witness_SilenceBlocksUntilReset_commands :
    (atCursor 7 [.silence]).answerAt 0 = .silence ∧ (atCursor 7 [.silence]).fr.cursor = 7 ∧
    (atCursor 1 [.silence]).answerAt 0 = .silence ∧ (atCursor 1 [.silence]).fr.cursor ≠ 0 ∧
    State.answerAt { s1 0 with answers := [.silence] } 0 = .silence ∧
    State.geometryAccepted { s1 0 with answers := [.silence] } ∧
    8 ≤ (s1 0).fr.cursor.toNat + (s1 0).framebufferBytes := by
  unfold State.geometryAccepted State.framebufferBytes
  decide

/-- Two frames: the first is answered and the second never. -/
theorem witness_SilenceBlocksUntilReset_laterFrame :
    State.geometryAccepted { s1 0 with reg := { regsS1 with fbW := 16 }, answers := [.success, .silence] } ∧
    1 < ((s1 0).fr.cursor.toNat + State.framebufferBytes { s1 0 with reg := { regsS1 with fbW := 16 } }) / 8 ∧
    (∀ k, k < 1 → State.answerAt { s1 0 with answers := [.success, .silence] } k = .success) ∧
    State.answerAt { s1 0 with answers := [.success, .silence] } 1 = .silence := by
  unfold State.geometryAccepted State.framebufferBytes
  decide

theorem witness_SilenceBlocksUntilReset_blocked :
    State.phase { small with phase := .waiting [0] } ≠ .idle ∧ small.inReset = false ∧
    (∀ rest, (withHost small [cmdWrite 0]).host ≠ .resetAssert :: rest ∧
      (withHost small [cmdWrite 0]).host ≠ .resetRelease :: rest) ∧
    (withHost { small with phase := .waiting [0] } [.resetAssert]).host = [.resetAssert] :=
  ⟨by decide, rfl, fun _ => ⟨nofun, nofun⟩, rfl⟩

theorem witness_ResetRefusesAccessesAndRestoresState :
    State.inReset { small with inReset := true } = true ∧
    (withHost { small with inReset := true } [.access ⟨.reg, 4, 4, .read⟩]).host = [.access ⟨.reg, 4, 4, .read⟩] ∧
    (withHost { small with inReset := true } [.resetRelease]).host = [.resetRelease] := by decide

theorem witness_ResetDuringACommandAbandonsIt :
    small.inReset = false ∧ small.phase = .idle ∧
    (withHost small [.commandCutByReset 0x30001000, .resetRelease]).host
      = [.commandCutByReset 0x30001000, .resetRelease] := by decide

theorem witness_CommandsKeepTheirFrame : ∃ t, exec .compw (s1 0) = .next t := ⟨_, rfl⟩

/-- A command that ends and one that waits. -/
theorem witness_EveryEndedCommandLeavesALegalStatus :
    (atCursor 0 []).phase = .idle ∧ (∃ t, runWord 0x100001FF (atCursor 0 []) = .next t ∧ t.phase = .idle) ∧
    ∃ t, runWord 0x100001FF (atCursor 7 [.silence]) = .next t ∧ t.phase ≠ .idle :=
  ⟨rfl, ⟨_, rfl, rfl⟩, ⟨_, rfl, nofun⟩⟩

theorem witness_ErrorCodesOfEachCommand :
    (atCursor 7 [.failure]).phase = .idle ∧
    (decode 0 = .illegal .opcode ∧ ∃ t, runWord 0 small = .next t ∧ t.phase = .idle) ∧
    (∃ t, exec .compx small = .next t ∧ t.phase = .idle) ∧
    (∃ t, exec (.push 0 0) (atCursor 7 [.failure]) = .next t ∧ t.phase = .idle) ∧
    (∃ t, exec (.flush 0 0) (atCursor 7 [.failure]) = .next t ∧ t.phase = .idle) ∧
    (∃ t, exec .sendr { tinyPage with answers := [.failure] } = .next t ∧ t.phase = .idle) ∧
    (∃ t, exec (.sendf 0) small = .next t ∧ t.phase = .idle) ∧
    ∃ t, exec (.quant4 0) small = .next t ∧ t.phase = .idle :=
  ⟨rfl, ⟨rfl, _, rfl, rfl⟩, ⟨_, rfl, rfl⟩, ⟨_, rfl, rfl⟩, ⟨_, rfl, rfl⟩, ⟨_, rfl, rfl⟩, ⟨_, rfl, rfl⟩, ⟨_, rfl, rfl⟩⟩

theorem witness_TheLogOnlyGrows :
    (atCursor 7 [.failure]).phase = .idle ∧ ∃ t, exec (.push 0 0) (atCursor 7 [.failure]) = .next t :=
  ⟨rfl, _, rfl⟩

theorem witness_EveryStepKeepsTheInvariant :
    (withHost (s1 0) [cmdWrite 0x30001000]).Inv ∧ ∃ t, step (withHost (s1 0) [cmdWrite 0x30001000]) = .next t := by
  constructor
  · unfold State.Inv
    decide
  · exact ⟨_, rfl⟩

theorem witness_MemorySizesNeverChange : ∃ t, step (withHost small [.resetAssert]) = .next t := ⟨_, rfl⟩

end Sys2Proof.Tests
end

namespace Sys2Proof.Machine

/-! ### What every step keeps

A step is made of a few elementary updates. A property that each of them keeps is kept by every command and by every
step; the invariant and the sizes of the memories are two such properties. -/

/-- The elementary updates a step is made of each keep `P`: the host's side (R33, R76, R230), the writes a command ends
with, and the transport, which only a command outside reset reaches (R81, R230). -/
structure StepKeeps (P : State → Prop) : Prop where
  accept : ∀ s rest, P s → P (s.accept rest)
  returnData : ∀ s v, P s → P (s.returnData v)
  assertReset : ∀ s, P s → P s.assertReset
  releaseReset : ∀ s, P s → P s.releaseReset
  writeReg : ∀ s v n, P s → P { s with reg := writeReg s.reg v n }
  writeFbMem : ∀ s a v, a < s.fbMem.size → P s → P { s with fbMem := s.fbMem.write a v }
  writeSrcMem : ∀ s a v, a < s.srcMem.size → P s → P { s with srcMem := s.srcMem.write a v }
  setStatus : ∀ s e, P s → P (s.setStatus e)
  setResult : ∀ s v, P s → P (s.setResult v)
  paint : ∀ s mode, s.geomOK = true → P s → P { s with fbMem := paint s mode }
  push : ∀ cb d s, s.inReset = false → P s → P (pushByte cb d s).state
  sendRaw : ∀ s, s.geomOK = true → s.inReset = false → P s → P (transmit s s.serialBytes).state

/-- Transactions leave the reset line alone (R168, R206). -/
theorem State.onlyTransported.inReset_eq {s t : State} (h : s.onlyTransported t) : t.inReset = s.inReset := by
  rw [h]

section
variable {P : State → Prop} {s t : State}

/-- Ending a command with its transport's answer writes at most STATUS (R202, R236). -/
theorem StepKeeps.endTransport (hP : StepKeeps P) {p : Progress} (hp : P p.state)
    (h : endTransport p = .next t) : P t := by
  rcases endTransport_cases p with e | e | e <;> rw [e] at h <;> cases h
  · exact hP.setStatus _ _ hp
  · exact hP.setStatus _ _ hp
  · exact hp

theorem StepKeeps.composite (hP : StepKeeps P) {mode : BlendMode} (hs : P s)
    (h : composite mode s = .next t) : P t := by
  rcases composite_cases mode s with ⟨hc, e⟩ | ⟨-, e⟩ <;> rw [e] at h <;> cases h
  · obtain ⟨hg, -, -⟩ := (compositeCheck_eq_none_iff s).1 hc
    exact hP.setStatus _ _ (hP.paint s mode hg hs)
  · exact hP.setStatus _ _ hs

/-- Outside reset, one push after another stays outside reset and keeps `P`. -/
theorem StepKeeps.push_outsideReset (hP : StepKeeps P) (cb : Bit) (d : Byte) (s : State)
    (hs : s.inReset = false ∧ P s) :
    (pushByte cb d s).state.inReset = false ∧ P (pushByte cb d s).state := by
  obtain ⟨hr, hs⟩ := hs
  exact ⟨(pushByte_onlyTransported cb d s).inReset_eq.trans hr, hP.push cb d s hr hs⟩

theorem StepKeeps.sendr (hP : StepKeeps P) (hr : s.inReset = false) (hs : P s)
    (h : execSendr s = .next t) : P t := by
  unfold execSendr at h
  split at h
  · exact hP.endTransport (hP.sendRaw s ‹_› hr hs) h
  · cases h
    exact hP.setStatus _ _ hs

theorem StepKeeps.sendf (hP : StepKeeps P) {cb : Bit} (hr : s.inReset = false) (hs : P s)
    (h : execSendf cb s = .next t) : P t := by
  unfold execSendf at h
  split at h
  · exact hP.endTransport (pushAll_invariant _ hP.push_outsideReset cb _ s ⟨hr, hs⟩).2 h
  · cases h
    exact hP.setStatus _ _ hs

theorem StepKeeps.exec (hP : StepKeeps P) {i : Instr} (hr : s.inReset = false) (hs : P s)
    (h : exec i s = .next t) : P t := by
  cases i with
  | push cb d => exact hP.endTransport (hP.push cb d s hr hs) h
  | flush cb noop => exact hP.endTransport (flushLoop_invariant _ hP.push_outsideReset 8 true cb noop s ⟨hr, hs⟩).2 h
  | compx => exact hP.composite hs h
  | compw => exact hP.composite hs h
  | compl => exact hP.composite hs h
  | revbits b =>
    cases h
    exact hP.setStatus _ _ (hP.setResult s _ hs)
  | quant4 b =>
    cases h
    exact hP.setStatus _ _ (hP.setResult s _ hs)
  | sendr => exact hP.sendr hr hs h
  | sendf cb => exact hP.sendf hr hs h

theorem StepKeeps.runWord (hP : StepKeeps P) {w : Word} (hr : s.inReset = false) (hs : P s)
    (h : runWord w s = .next t) : P t := by
  unfold Machine.runWord at h
  split at h
  · exact hP.exec hr hs h
  · cases h
    exact hP.setStatus _ _ hs

/-- An admitted memory access is to an address below the size of its memory (R81). -/
theorem admitted_fbMem {a : Access} (ha : admitted s a = true) (h : a.space = .fbMem) : a.addr < s.fbMem.size := by
  simp only [admitted, h, Bool.and_eq_true, decide_eq_true_eq] at ha
  exact ha.2

theorem admitted_srcMem {a : Access} (ha : admitted s a = true) (h : a.space = .srcMem) : a.addr < s.srcMem.size := by
  simp only [admitted, h, Bool.and_eq_true, decide_eq_true_eq] at ha
  exact ha.2

/-- What every elementary update keeps, every step keeps: by the host's next event, and by the command of a CMD write. -/
theorem StepKeeps.step (hP : StepKeeps P) (hs : P s) (h : step s = .next t) : P t := by
  unfold Machine.step at h
  rcases hostAction_cases s with e | e | ⟨rest, e⟩ | ⟨rest, e⟩ | ⟨a, rest, -, hr, -, ha, e⟩ <;> rw [e] at h
  · cases h
    exact hs
  · cases h
  · cases h
    exact hP.assertReset _ (hP.accept s rest hs)
  · cases h
    exact hP.releaseReset _ (hP.accept s rest hs)
  · have hacc : P (s.accept rest) := hP.accept s rest hs
    rcases accessAction_cases (s.accept rest) a with
      ⟨v, e⟩ | ⟨w, -, e⟩ | ⟨v, n, e⟩ | e | ⟨v, hsp, e⟩ | ⟨v, hsp, e⟩ <;> rw [e] at h
    · cases h
      exact hP.returnData _ v hacc
    · exact hP.runWord (s := s.accept rest) hr hacc h
    · cases h
      exact hP.writeReg _ v n hacc
    · cases h
      exact hacc
    · cases h
      exact hP.writeFbMem _ a.addr v (admitted_fbMem ha hsp) hacc
    · cases h
      exact hP.writeSrcMem _ a.addr v (admitted_srcMem ha hsp) hacc

end

/-! ### The parts of the invariant -/

/-- The part of `State.Inv` that speaks of the two memories and their draw numbers (R9, R72, R73, R59). -/
def State.memoriesLegal (s : State) : Prop :=
  s.fbMem.wf = true ∧ s.srcMem.wf = true ∧ 1 ≤ s.fbMem.size ∧ s.srcMem.size ≤ 2 ^ 32 ∧
  s.fbMem.draw < s.nextDraw ∧ s.srcMem.draw < s.nextDraw ∧ s.fbMem.draw ≠ s.srcMem.draw

theorem State.inv_iff (s : State) :
    s.Inv ↔ s.memoriesLegal ∧ s.reg.statusLegal = true ∧ s.fr.startsClean = true ∧
      (∀ t ∈ s.log, t.bytes ≠ []) ∧ s.phaseLegal = true := by
  simp only [State.Inv, State.memoriesLegal, and_assoc]

theorem Framer.startsClean_iff (f : Framer) : f.startsClean = true ↔ (f.cursor = 0 → f.prev = 0) := by
  simp only [Framer.startsClean, decide_eq_true_eq]

theorem Framer.startsClean_of_cursor_ne_zero {f : Framer} (h : f.cursor ≠ 0) : f.startsClean = true :=
  f.startsClean_iff.2 fun h0 => absurd h0 h

/-- A framer restarted after a transmission is clean (R160, R169). -/
theorem Framer.restart_startsClean (f : Framer) : f.restart.startsClean = true :=
  f.restart.startsClean_iff.2 fun _ => rfl

/-- A frame is never an empty transaction (R162). -/
theorem Framer.frame_toList_ne_nil (f : Framer) : f.frame.toList ≠ [] :=
  List.ne_nil_of_length_pos (by simp)

theorem State.phaseLegal_of_idle {s : State} (h : s.phase = .idle) : s.phaseLegal = true := by
  simp [State.phaseLegal, h]

theorem State.phaseLegal_of_waiting {s : State} {bytes : List Byte} (h : s.phase = .waiting bytes)
    (hb : bytes ≠ []) (hr : s.inReset = false) : s.phaseLegal = true := by
  simp [State.phaseLegal, h, hb, hr]

/-- A host register write stores in no STATUS field (R33, R35). -/
theorem writeReg_statusLegal (r : Regs) (v : Word) (n : RegName) :
    (writeReg r v n).statusLegal = r.statusLegal := by
  obtain ⟨hok, herr, -⟩ := writeReg_readOnly r v n
  simp only [Regs.statusLegal, hok, herr]

/-- A framebuffer of accepted geometry holds at least one byte: a page layout has at least eight rows (R131). -/
theorem State.fbSize_pos {s : State} (hg : s.geomOK = true) : 0 < s.fbSize := by
  obtain ⟨hW, hH, hl, -⟩ := s.geomOK_iff.1 hg
  have hWH : 1 * s.fbHeight ≤ s.fbWidth * s.fbHeight := Nat.mul_le_mul_right _ hW
  unfold State.fbSize
  split
  · omega
  · have : s.fbHeight % 8 = 0 := hl.resolve_left ‹_›
    omega

/-- SENDR's transaction is not empty (R190). -/
theorem State.serialBytes_ne_nil {s : State} (hg : s.geomOK = true) : s.serialBytes ≠ [] :=
  List.ne_nil_of_length_pos (by simpa [State.serialBytes] using State.fbSize_pos hg)

/-! ### The invariant under each update -/

section
variable {s : State}

theorem State.Inv.fbMem_wf (h : s.Inv) : s.fbMem.wf = true := by
  obtain ⟨⟨hfb, -⟩, -⟩ := s.inv_iff.1 h
  exact hfb

theorem State.Inv.srcMem_wf (h : s.Inv) : s.srcMem.wf = true := by
  obtain ⟨⟨-, hsrc, -⟩, -⟩ := s.inv_iff.1 h
  exact hsrc

theorem State.Inv.statusLegal (h : s.Inv) : s.reg.statusLegal = true := by
  obtain ⟨-, hst, -⟩ := s.inv_iff.1 h
  exact hst

theorem State.Inv.startsClean (h : s.Inv) : s.fr.startsClean = true := by
  obtain ⟨-, -, hfr, -⟩ := s.inv_iff.1 h
  exact hfr

theorem State.Inv.withReg (h : s.Inv) {r : Regs} (hr : r.statusLegal = true) :
    State.Inv { s with reg := r } := by
  obtain ⟨hmem, -, hfr, hlog, hph⟩ := s.inv_iff.1 h
  exact (State.inv_iff _).2 ⟨hmem, hr, hfr, hlog, hph⟩

theorem State.Inv.withFbMem (h : s.Inv) {m : Memory} (hwf : m.wf = true) (hsize : m.size = s.fbMem.size)
    (hdraw : m.draw = s.fbMem.draw) : State.Inv { s with fbMem := m } := by
  obtain ⟨⟨-, hsrc, hpos, hmax, hd, hds, hne⟩, hrest⟩ := s.inv_iff.1 h
  exact (State.inv_iff _).2 ⟨⟨hwf, hsrc, hsize ▸ hpos, hmax, hdraw ▸ hd, hds, hdraw ▸ hne⟩, hrest⟩

theorem State.Inv.withSrcMem (h : s.Inv) {m : Memory} (hwf : m.wf = true) (hsize : m.size = s.srcMem.size)
    (hdraw : m.draw = s.srcMem.draw) : State.Inv { s with srcMem := m } := by
  obtain ⟨⟨hfb, -, hpos, hmax, hd, hds, hne⟩, hrest⟩ := s.inv_iff.1 h
  exact (State.inv_iff _).2 ⟨⟨hfb, hwf, hpos, hsize ▸ hmax, hd, hdraw ▸ hds, hdraw ▸ hne⟩, hrest⟩

theorem State.Inv.withFramer (h : s.Inv) {f : Framer} (hf : f.startsClean = true) :
    State.Inv { s with fr := f } := by
  obtain ⟨hmem, hst, -, hlog, hph⟩ := s.inv_iff.1 h
  exact (State.inv_iff _).2 ⟨hmem, hst, hf, hlog, hph⟩

/-- A transaction of at least one byte was answered and logged (R206). -/
theorem State.Inv.answered (h : s.Inv) {f : Framer} (hf : f.startsClean = true) {bytes : List Byte}
    (hb : bytes ≠ []) (ok : Bool) (answers : List TransportAnswer) (asked : Nat) :
    State.Inv { s with fr := f, log := s.log ++ [⟨bytes, ok⟩], answers := answers, asked := asked } := by
  obtain ⟨hmem, hst, -, hlog, hph⟩ := s.inv_iff.1 h
  refine (State.inv_iff _).2 ⟨hmem, hst, hf, fun t ht => ?_, hph⟩
  rcases List.mem_append.1 ht with ht | ht
  · exact hlog t ht
  · rw [List.mem_singleton.1 ht]
    exact hb

/-- A transaction of at least one byte waits for its answer outside reset (R236). -/
theorem State.Inv.waits (h : s.Inv) (hr : s.inReset = false) {f : Framer} (hf : f.startsClean = true)
    {bytes : List Byte} (hb : bytes ≠ []) (answers : List TransportAnswer) (asked : Nat) :
    State.Inv { s with fr := f, phase := .waiting bytes, answers := answers, asked := asked } := by
  obtain ⟨hmem, hst, -, hlog, -⟩ := s.inv_iff.1 h
  exact (State.inv_iff _).2 ⟨hmem, hst, hf, hlog, State.phaseLegal_of_waiting rfl hb hr⟩

theorem State.Inv.transmit (h : s.Inv) (hr : s.inReset = false) {bytes : List Byte} (hb : bytes ≠ []) :
    (transmit s bytes).state.Inv := by
  rcases transmit_cases s bytes with ⟨ok, -, e⟩ | ⟨-, e⟩ <;> rw [e]
  · exact h.answered h.startsClean hb ok _ _
  · exact h.waits hr h.startsClean hb _ _

/-- A push moves the cursor off 0, or restarts the framer, or waits at cursor 7 (R160, R236). -/
theorem State.Inv.pushByte (h : s.Inv) (hr : s.inReset = false) (cb : Bit) (d : Byte) :
    (pushByte cb d s).state.Inv := by
  rcases pushByte_cases cb d s with ⟨h7, e⟩ | ⟨-, ok, -, e⟩ | ⟨h7, -, e⟩ <;> rw [e]
  · exact h.withFramer (Framer.startsClean_of_cursor_ne_zero (by bv_omega))
  · exact h.answered (Framer.restart_startsClean _) (Framer.frame_toList_ne_nil _) ok _ _
  · have hcur : (s.fr.full cb d).cursor ≠ 0 := by
      rw [show (s.fr.full cb d).cursor = 7 from h7]
      decide
    exact h.waits hr (Framer.startsClean_of_cursor_ne_zero hcur) (Framer.frame_toList_ne_nil _) _ _

theorem State.Inv.assertReset (h : s.Inv) : s.assertReset.Inv := by
  obtain ⟨hmem, hst, hfr, hlog, -⟩ := s.inv_iff.1 h
  exact (State.inv_iff _).2 ⟨hmem, hst, hfr, hlog, State.phaseLegal_of_idle rfl⟩

/-- The release draws FBMEM under a number SRCMEM cannot have, since every number in use is below `nextDraw` (R59). -/
theorem State.Inv.reinitialise (h : s.Inv) : s.reinitialise.Inv := by
  obtain ⟨⟨-, hsrc, hpos, hmax, -, hds, -⟩, -⟩ := s.inv_iff.1 h
  exact (State.inv_iff _).2
    ⟨⟨s.fbMem.redraw_wf _, hsrc, hpos, hmax, Nat.lt_succ_self _, Nat.lt_succ_of_lt hds, hds.ne'⟩, rfl, rfl, nofun,
      State.phaseLegal_of_idle rfl⟩

theorem State.Inv.releaseReset (h : s.Inv) : s.releaseReset.Inv := by
  unfold State.releaseReset
  split
  · exact h.reinitialise
  · exact h

end

/-- Every elementary update of a step keeps the invariant. -/
theorem stepKeeps_inv : StepKeeps State.Inv where
  accept _ _ h := h
  returnData _ _ h := h
  assertReset _ h := h.assertReset
  releaseReset _ h := h.releaseReset
  writeReg s v n h := h.withReg ((writeReg_statusLegal s.reg v n).trans h.statusLegal)
  writeFbMem s a v ha h := h.withFbMem (s.fbMem.write_wf a v h.fbMem_wf ha) rfl rfl
  writeSrcMem s a v ha h := h.withSrcMem (s.srcMem.write_wf a v h.srcMem_wf ha) rfl rfl
  setStatus s e h := h.withReg (s.setStatus_statusLegal e)
  setResult _ _ h := h.withReg h.statusLegal
  paint _ mode hg h := h.withFbMem (paint_wf hg mode h.fbMem_wf) (paint_size hg mode) (paint_draw hg mode)
  push cb d _ hr h := h.pushByte hr cb d
  sendRaw _ hg hr h := h.transmit hr (State.serialBytes_ne_nil hg)

/-- Settles O52: the invariant is kept by every elementary update, hence by every step. -/
theorem everyStepKeepsTheInvariant : Obligations.EveryStepKeepsTheInvariant :=
  fun _ _ hs h => stepKeeps_inv.step hs h

/-- Settles O53, from R9's bounds on the two sizes and the reset values of R59. -/
theorem resetMeetsTheInvariant : Obligations.ResetMeetsTheInvariant := by
  obtain ⟨hfb, hsrc⟩ := reset_memories_wf
  have hpos : 1 ≤ Config.fbMemBytes := Nat.le_add_left 1 _
  have hmax : Config.srcMemBytes ≤ 2 ^ 32 := Nat.le_of_lt_succ Config.srcMemBytesBounded.isLt
  exact (State.inv_iff _).2
    ⟨⟨hfb, hsrc, hpos, hmax, Nat.two_pos, Nat.one_lt_two, Nat.zero_ne_one⟩, rfl, rfl, nofun,
      State.phaseLegal_of_idle rfl⟩

/-! ### The sizes of the memories -/

/-- The memories of `s` have the sizes of those of `s₀`. -/
def State.sameSizes (s₀ s : State) : Prop :=
  s.fbMem.size = s₀.fbMem.size ∧ s.srcMem.size = s₀.srcMem.size

/-- Transactions leave the memories alone (R168, R206). -/
theorem State.sameSizes.transported {s₀ s t : State} (h : s₀.sameSizes s) (ht : s.onlyTransported t) :
    s₀.sameSizes t := by
  rw [ht]
  exact h

theorem State.sameSizes.releaseReset {s₀ s : State} (h : s₀.sameSizes s) : s₀.sameSizes s.releaseReset := by
  unfold State.releaseReset
  split
  · exact h
  · exact h

/-- Every elementary update of a step keeps the sizes: no write, painting or new draw changes one (R72, R73). -/
theorem stepKeeps_sameSizes (s₀ : State) : StepKeeps s₀.sameSizes where
  accept _ _ h := h
  returnData _ _ h := h
  assertReset _ h := h
  releaseReset _ h := h.releaseReset
  writeReg _ _ _ h := h
  writeFbMem _ _ _ _ h := h
  writeSrcMem _ _ _ _ h := h
  setStatus _ _ h := h
  setResult _ _ h := h
  paint _ mode hg h := ⟨(paint_size hg mode).trans h.1, h.2⟩
  push cb d s _ h := h.transported (pushByte_onlyTransported cb d s)
  sendRaw s _ _ h := h.transported (transmit_onlyTransported s _)

/-- Settles O54: every elementary update, hence every step, keeps both sizes. -/
theorem memorySizesNeverChange : Obligations.MemorySizesNeverChange :=
  fun s _ h => (stepKeeps_sameSizes s).step ⟨rfl, rfl⟩ h

end Sys2Proof.Machine

namespace Sys2Proof.Machine

/-! ### The step of a CMD write -/

theorem runWord_command {w : Word} {i : Instr} (s : State) (h : decode w = .command i) : runWord w s = exec i s := by
  simp only [runWord, h]

/-- A word that decodes to no command leaves ILLEGAL_CMD in STATUS and changes nothing else (R105). -/
theorem runWord_illegal {w : Word} (s : State) (h : ∀ i, decode w ≠ .command i) :
    runWord w s = .next (s.withStatus 0 1) := by
  cases hd : decode w with
  | command i => exact absurd hd (h i)
  | illegal why =>
    simp only [runWord, hd, illegalCommand]
    rfl

/-- Settles O7. -/
theorem stepRunsTheDecodedCommand : Obligations.StepRunsTheDecodedCommand :=
  fun _ _ _ _ hhost hreset hidle hw => (step_cmdWrite hhost hreset hidle).trans (runWord_command _ hw)

/-- Settles O8. -/
theorem stepOfAnIllegalWord : Obligations.StepOfAnIllegalWord :=
  fun _ _ _ hhost hreset hidle hw => (step_cmdWrite hhost hreset hidle).trans (runWord_illegal _ hw)

/-! ### Registers: what a read returns after a write -/

/-- What a host read of a register returns rests on the registers and the two fields FRAMER shows (R32, R37). -/
theorem readReg_withFr (s : State) {f : Framer} (hcur : f.cursor = s.fr.cursor) (hprev : f.prev = s.fr.prev)
    (r : RegName) : readReg { s with fr := f } r = readReg s r := by
  cases r with
  | framer => simp only [readReg, Framer.word, hcur, hprev]
  | _ => rfl

/-- No host read, of any space, returns anything of the frame bytes (R37). -/
theorem accessRead_withFr (s : State) {f : Framer} (hcur : f.cursor = s.fr.cursor) (hprev : f.prev = s.fr.prev)
    (a : Access) : accessRead { s with fr := f } a = accessRead s a := by
  unfold accessRead
  cases a.space with
  | reg =>
    cases regAt a.addr with
    | some r => exact readReg_withFr s hcur hprev r
    | none => rfl
  | fbMem => rfl
  | srcMem => rfl

/-- R37: CURSOR in bits [2:0], PREV in bits [15:8]. -/
theorem Framer.getLsbD_word (f : Framer) (k : Nat) :
    f.word.getLsbD k =
      if k < 3 then f.cursor.getLsbD k else if 8 ≤ k ∧ k < 16 then f.prev.getLsbD (k - 8) else false := by
  simp only [Framer.word, BitVec.getLsbD_append]
  grind

/-- R35: LAST_OK in bit 0, LAST_ERR in bits [7:4]. -/
theorem Regs.getLsbD_statusWord (r : Regs) (k : Nat) :
    r.statusWord.getLsbD k =
      if k = 0 then r.lastOk.getLsbD 0 else if 4 ≤ k ∧ k < 8 then r.lastErr.getLsbD (k - 4) else false := by
  simp only [Regs.statusWord, BitVec.getLsbD_append]
  grind

/-- A field of `n` bits keeps the low `n` bits of the word written (R33). -/
theorem setWidth_setWidth_eq_and (v : Word) (n : Nat) :
    (v.setWidth n).setWidth 32 = v &&& BitVec.ofNat 32 (2 ^ n - 1) := by
  apply BitVec.eq_of_getLsbD_eq
  intro k hk
  simp only [BitVec.getLsbD_setWidth, BitVec.getLsbD_and, BitVec.getLsbD_ofNat, Nat.testBit_two_pow_sub_one, hk]
  simp [Bool.and_comm]

/-- FG and BG keep MONO in bit 16 and the channels in bits [11:0] (R47). -/
theorem Colour.word_ofWord (v : Word) : (Colour.ofWord v).word = v &&& 0x00010FFF := by
  apply BitVec.eq_of_getLsbD_eq
  intro k hk
  simp only [Colour.ofWord, Colour.word, BitVec.getLsbD_append, BitVec.getLsbD_extractLsb', BitVec.getLsbD_and]
  interval_cases k <;> simp

/-- The rows of R32's table of read-write registers have the offsets of `regOffset`, and CMD is not among them. -/
theorem readWriteRegs_regOffset :
    ∀ row ∈ readWriteRegs, row.2.1 = regOffset row.1 ∧ row.1 ≠ .cmd := by decide

/-- A read-write register returns the field bits of the word last written to it (R33). -/
theorem readReg_writeReg_same (s : State) (v : Word) {n : RegName} {offset : Nat} {mask : Word}
    (h : (n, offset, mask) ∈ readWriteRegs) :
    readReg { s with reg := writeReg s.reg v n } n = v &&& mask := by
  simp only [readWriteRegs, List.mem_cons, Prod.mk.injEq, List.not_mem_nil, or_false] at h
  rcases h with ⟨rfl, -, rfl⟩ | ⟨rfl, -, rfl⟩ | ⟨rfl, -, rfl⟩ | ⟨rfl, -, rfl⟩ | ⟨rfl, -, rfl⟩ | ⟨rfl, -, rfl⟩ |
    ⟨rfl, -, rfl⟩ | ⟨rfl, -, rfl⟩ | ⟨rfl, -, rfl⟩ | ⟨rfl, -, rfl⟩ | ⟨rfl, -, rfl⟩
  · exact setWidth_setWidth_eq_and v 1
  · exact setWidth_setWidth_eq_and v 16
  · exact setWidth_setWidth_eq_and v 16
  · exact (BitVec.and_allOnes (x := v)).symm
  · exact setWidth_setWidth_eq_and v 16
  · exact setWidth_setWidth_eq_and v 16
  · exact setWidth_setWidth_eq_and v 8
  · exact setWidth_setWidth_eq_and v 16
  · exact setWidth_setWidth_eq_and v 16
  · exact Colour.word_ofWord v
  · exact Colour.word_ofWord v

/-- A write to one register leaves every other as it reads: it stores in its own field, or in none (R33). -/
theorem readReg_writeReg_other (s : State) (v : Word) {n m : RegName} (h : m ≠ n) :
    readReg { s with reg := writeReg s.reg v n } m = readReg s m := by
  cases n with
  | cmd | status | result | framer => rfl
  | _ => cases m <;> first | exact absurd rfl h | rfl

/-- Settles O37. -/
theorem writtenRegistersReadBack : Obligations.WrittenRegistersReadBack := by
  intro s n offset mask v rest hrow hhost hreset hidle
  obtain ⟨rfl, hcmd⟩ : offset = regOffset n ∧ n ≠ .cmd := readWriteRegs_regOffset _ hrow
  obtain ⟨hok, herr, hresult⟩ := writeReg_readOnly s.reg v n
  have hread := readReg_writeReg_same s v hrow
  exact ⟨_, _, step_regWrite hhost hreset hidle hcmd, step_regRead rfl hreset hidle, congrArg some hread, hread, rfl,
    hok, herr, hresult, fun m hm => readReg_writeReg_other s v hm⟩

/-! ### Registers that ignore writes, and fields bit by bit -/

/-- No register stands at a reserved offset (R32, R71). -/
theorem regAt_reserved {addr : Nat} (h : 0x3C ≤ addr) : regAt addr = none := by
  rw [regAt, List.find?_eq_none]
  intro r _
  have hlt : regOffset r < 0x3C := by cases r <;> decide
  simp only [beq_iff_eq]
  omega

/-- The step of a write to a reserved offset takes the access and no more (R71). -/
theorem step_reservedWrite {s : State} {addr : Nat} {v : Word} {rest : List HostEvent}
    (h : s.host = .access ⟨.reg, addr, 4, .write v⟩ :: rest) (hr : s.inReset = false) (hp : s.phase = .idle)
    (hlo : 0x3C ≤ addr) (hhi : addr < 256) (hal : addr % 4 = 0) :
    step s = .next { s with host := rest, readData := none } := by
  refine step_access h hr hp (by simp [admitted, hhi, hal]) ?_
  have hcmd : addr ≠ 0 := by omega
  simp [accessAction, Access.toCmd, accessWrite, regAt_reserved hlo, regOffset, hcmd, State.accept]

/-- Settles O39. -/
theorem readOnlyWritesAreIgnored : Obligations.ReadOnlyWritesAreIgnored := by
  rintro s addr v rest hhost hreset hidle (rfl | rfl | rfl | ⟨hlo, hhi, hal⟩)
  · exact step_regWrite (n := .status) hhost hreset hidle nofun
  · exact step_regWrite (n := .result) hhost hreset hidle nofun
  · exact step_regWrite (n := .framer) hhost hreset hidle nofun
  · exact step_reservedWrite hhost hreset hidle hlo hhi hal

/-- Settles O40. -/
theorem framerRegisterShowsCursorAndPrev : Obligations.FramerRegisterShowsCursorAndPrev :=
  fun s => ⟨s.fr.getLsbD_word, fun a _ => accessRead_withFr s rfl rfl a, regAt_regOffset .framer, fun _ => rfl⟩

/-- Settles O41. -/
theorem statusAndResultReadTheirFields : Obligations.StatusAndResultReadTheirFields := by
  refine fun s => ⟨s.reg.getLsbD_statusWord, fun k => ?_⟩
  show (s.reg.result.setWidth 32).getLsbD k = _
  rw [BitVec.getLsbD_setWidth]
  split_ifs with h
  · rw [decide_eq_true (h.trans (by decide)), Bool.true_and]
  · rw [BitVec.getLsbD_of_ge _ _ (not_lt.1 h), Bool.and_false]

/-- Settles O47, by evaluation of the reset state. -/
theorem resetStateIsTheSpecs : Obligations.ResetStateIsTheSpecs := by
  unfold Obligations.ResetStateIsTheSpecs
  decide

/-! ### Stale frame bytes

Two states that agree but for the frame bytes at and above the cursor go through each operation side by side: a push
rewrites position `cursor` before it moves past it, and a frame is handed over only after positions 7 and 8 were
rewritten (R51, R57). -/

theorem Framer.agree.refl (f : Framer) : f.agree f := ⟨rfl, rfl, fun _ _ => rfl⟩

section
variable {f g : Framer}

/-- After the two writes of a push the framers agree at the position written too (R160). -/
theorem Framer.agree.store_frame (h : f.agree g) (cb : Bit) (d : Byte) {k : Nat} (hk : k ≤ f.cursor.toNat) :
    (f.store cb d).frame[k]? = (g.store cb d).frame[k]? := by
  obtain ⟨hcur, hprev, hframe⟩ := h
  rw [Framer.store_frame, Framer.store_frame, ← hcur, ← hprev]
  rcases hk.lt_or_eq with hlt | rfl
  · rw [Vector.getElem?_setIfInBounds_ne (by omega), Vector.getElem?_setIfInBounds_ne (by omega), hframe k hlt]
  · simp only [Vector.getElem?_setIfInBounds_self]

/-- A push below cursor 7 keeps agreement, though the cursor moves past one more byte (R160). -/
theorem Framer.agree.push (h : f.agree g) (h7 : f.cursor ≠ 7) (cb : Bit) (d : Byte) :
    Framer.agree { f.store cb d with cursor := f.cursor + 1 } { g.store cb d with cursor := g.cursor + 1 } := by
  obtain ⟨hcur, -, -⟩ := id h
  refine ⟨congrArg (· + 1) hcur, rfl, fun k hk => h.store_frame cb d ?_⟩
  have hne : f.cursor.toNat ≠ 7 := fun e => h7 (BitVec.eq_of_toNat_eq e)
  have hnext : (f.cursor + 1).toNat = f.cursor.toNat + 1 := by bv_omega
  have hk : k < (f.cursor + 1).toNat := hk
  omega

/-- At cursor 7 the push rewrites every byte the framers may differ in: the frame handed over is the same (R162). -/
theorem Framer.agree.full_eq (h : f.agree g) (h7 : f.cursor = 7) (cb : Bit) (d : Byte) :
    f.full cb d = g.full cb d := by
  obtain ⟨hcur, -, -⟩ := id h
  have hframe : (f.full cb d).frame = (g.full cb d).frame := by
    refine Vector.toList_inj.1 (List.ext_getElem? fun k => ?_)
    rw [Vector.getElem?_toList, Vector.getElem?_toList]
    unfold Framer.full
    rw [Framer.storeLast_frame, Framer.storeLast_frame]
    by_cases h8 : k = 8
    · subst h8
      simp only [Vector.getElem?_setIfInBounds_self]
    · rw [Vector.getElem?_setIfInBounds_ne (Ne.symm h8), Vector.getElem?_setIfInBounds_ne (Ne.symm h8)]
      by_cases hk : k ≤ 7
      · exact h.store_frame cb d (by simpa [h7] using hk)
      · simp [show 9 ≤ k by omega]
  exact Framer.mk.injEq .. |>.mpr ⟨hcur, rfl, hframe⟩

end

theorem State.agree_iff (s s' : State) : s.agree s' ↔ ∃ f, s.fr.agree f ∧ s' = { s with fr := f } := by
  constructor
  · rintro ⟨hf, heq⟩
    exact ⟨s'.fr, hf, heq⟩
  · rintro ⟨f, hf, rfl⟩
    exact ⟨hf, rfl⟩

theorem State.agree.refl (s : State) : s.agree s := ⟨Framer.agree.refl _, rfl⟩

/-- Two parts of a command came to the same, in states that agree. -/
inductive Progress.Agree : Progress → Progress → Prop where
  | done (ok : Bool) {t t' : State} (h : t.agree t') : Agree (.done ok t) (.done ok t')
  | waiting {t t' : State} (h : t.agree t') : Agree (.waiting t) (.waiting t')

/-- Two commands or steps have the same outcome, in states that agree. -/
inductive OutcomesAgree : Host.Outcome State Fault Refusal → Host.Outcome State Fault Refusal → Prop where
  | next {t t' : State} (h : t.agree t') : OutcomesAgree (.next t) (.next t')
  | fault (r : Fault) : OutcomesAgree (.fault r) (.fault r)
  | refused (r : Refusal) : OutcomesAgree (.refused r) (.refused r)

section
variable {o : Host.Outcome State Fault Refusal}

theorem OutcomesAgree.next_right {t : State} (h : OutcomesAgree (.next t) o) : ∃ t', o = .next t' ∧ t.agree t' := by
  cases h with
  | next h => exact ⟨_, rfl, h⟩

theorem OutcomesAgree.fault_right {r : Fault} (h : OutcomesAgree (.fault r) o) : o = .fault r := by
  cases h with
  | fault => rfl

theorem OutcomesAgree.refused_right {r : Refusal} (h : OutcomesAgree (.refused r) o) : o = .refused r := by
  cases h with
  | refused => rfl

end

/-- The host's next event asks the same of two engines, in states that agree. -/
inductive BusAction.Agree : BusAction → BusAction → Prop where
  | still : Agree .still .still
  | finished {t t' : State} (h : t.agree t') : Agree (.finished t) (.finished t')
  | busError : Agree .busError .busError
  | issue (w : Word) {t t' : State} (h : t.agree t') : Agree (.issue w t) (.issue w t')

section
variable {s s' : State}

theorem pushByte_agree (h : s.agree s') (cb : Bit) (d : Byte) :
    (pushByte cb d s).Agree (pushByte cb d s') := by
  obtain ⟨f, hf, rfl⟩ := (s.agree_iff s').1 h
  obtain ⟨hcur, -, -⟩ := id hf
  rcases pushByte_cases cb d s with ⟨h7, e⟩ | ⟨h7, ok, ha, e⟩ | ⟨h7, ha, e⟩ <;> rw [e]
  · rw [pushByte_below (s := { s with fr := f }) cb d (hcur ▸ h7)]
    exact .done true ⟨hf.push h7 cb d, rfl⟩
  · rw [pushByte_answered (s := { s with fr := f }) cb d ok (hcur ▸ h7) ha, hf.full_eq h7]
    exact .done ok (.refl _)
  · rw [pushByte_silent (s := { s with fr := f }) cb d (hcur ▸ h7) ha, hf.full_eq h7]
    exact .waiting (.refl _)

theorem flushLoop_agree (h : s.agree s') (fuel : Nat) (ok : Bool) (cb : Bit) (noop : Byte) :
    (flushLoop fuel ok cb noop s).Agree (flushLoop fuel ok cb noop s') := by
  induction fuel generalizing ok s s' with
  | zero => exact .done ok h
  | succ n ih =>
    obtain ⟨⟨hcur, -, -⟩, -⟩ := id h
    unfold flushLoop
    rw [← hcur]
    split
    · exact .done ok h
    · have hpush := pushByte_agree h cb noop
      generalize pushByte cb noop s = p, pushByte cb noop s' = q at hpush
      cases hpush with
      | done ok' ht => exact ih ht ok'
      | waiting ht => exact .waiting ht

theorem pushAll_agree (h : s.agree s') (cb : Bit) (bytes : List Byte) :
    (pushAll cb bytes s).Agree (pushAll cb bytes s') := by
  induction bytes generalizing s s' with
  | nil => exact .done true h
  | cons b rest ih =>
    unfold pushAll
    have hpush := pushByte_agree h cb b
    generalize pushByte cb b s = p, pushByte cb b s' = q at hpush
    cases hpush with
    | done ok ht =>
      cases ok with
      | true => exact ih ht
      | false => exact .done false ht
    | waiting ht => exact .waiting ht

theorem transmit_agree (h : s.agree s') (bytes : List Byte) :
    (transmit s bytes).Agree (transmit s' bytes) := by
  obtain ⟨f, hf, rfl⟩ := (s.agree_iff s').1 h
  rcases transmit_cases s bytes with ⟨ok, ha, e⟩ | ⟨ha, e⟩ <;> rw [e]
  · cases ok with
    | true =>
      rw [transmit_success (s := { s with fr := f }) bytes ha]
      exact .done true ⟨hf, rfl⟩
    | false =>
      rw [transmit_failure (s := { s with fr := f }) bytes ha]
      exact .done false ⟨hf, rfl⟩
  · rw [transmit_silence (s := { s with fr := f }) bytes ha]
    exact .waiting ⟨hf, rfl⟩

theorem State.agree.setStatus (h : s.agree s') (e : ErrorCode) : (s.setStatus e).agree (s'.setStatus e) := by
  obtain ⟨f, hf, rfl⟩ := (s.agree_iff s').1 h
  exact ⟨hf, rfl⟩

theorem State.agree.setResult (h : s.agree s') (v : Byte) : (s.setResult v).agree (s'.setResult v) := by
  obtain ⟨f, hf, rfl⟩ := (s.agree_iff s').1 h
  exact ⟨hf, rfl⟩

theorem endTransport_agree {p q : Progress} (h : p.Agree q) : OutcomesAgree (endTransport p) (endTransport q) := by
  cases h with
  | done ok h => cases ok <;> exact .next (h.setStatus _)
  | waiting h => exact .next h

/-- The compositor reads nothing of the framer (R168). -/
theorem composite_agree (h : s.agree s') (mode : BlendMode) :
    OutcomesAgree (composite mode s) (composite mode s') := by
  obtain ⟨f, hf, rfl⟩ := (s.agree_iff s').1 h
  have hcheck : compositeCheck { s with fr := f } = compositeCheck s := rfl
  have hpaint : paint { s with fr := f } mode = paint s mode := rfl
  rcases composite_cases mode s with ⟨hc, e⟩ | ⟨hc, e⟩ <;>
    rcases composite_cases mode { s with fr := f } with ⟨hc', e'⟩ | ⟨hc', e'⟩ <;> rw [e, e']
  · rw [hpaint]
    exact .next ⟨hf, rfl⟩
  · exact absurd (hcheck.trans hc) hc'
  · exact absurd (hcheck ▸ hc') hc
  · exact .next (h.setStatus _)

/-- What SENDR and SENDF check and send rests on the registers and FBMEM only (R131, R192). -/
theorem State.agree.serialiser_eq (h : s.agree s') : s'.geomOK = s.geomOK ∧ s'.serialBytes = s.serialBytes := by
  obtain ⟨f, -, rfl⟩ := (s.agree_iff s').1 h
  exact ⟨rfl, rfl⟩

theorem execSendr_agree (h : s.agree s') : OutcomesAgree (execSendr s) (execSendr s') := by
  obtain ⟨hgeom, hbytes⟩ := h.serialiser_eq
  unfold execSendr
  rw [hgeom, hbytes]
  split
  · exact endTransport_agree (transmit_agree h _)
  · exact .next (h.setStatus _)

theorem execSendf_agree (h : s.agree s') (cb : Bit) : OutcomesAgree (execSendf cb s) (execSendf cb s') := by
  obtain ⟨hgeom, hbytes⟩ := h.serialiser_eq
  unfold execSendf
  rw [hgeom, hbytes]
  split
  · exact endTransport_agree (pushAll_agree h cb _)
  · exact .next (h.setStatus _)

theorem exec_agree (h : s.agree s') (i : Instr) : OutcomesAgree (exec i s) (exec i s') := by
  cases i with
  | push cb d => exact endTransport_agree (pushByte_agree h cb d)
  | flush cb noop => exact endTransport_agree (flushLoop_agree h 8 true cb noop)
  | compx => exact composite_agree h .exclusive
  | compw => exact composite_agree h .overwrite
  | compl => exact composite_agree h .overlay
  | revbits b => exact .next ((h.setResult _).setStatus _)
  | quant4 b => exact .next ((h.setResult _).setStatus _)
  | sendr => exact execSendr_agree h
  | sendf cb => exact execSendf_agree h cb

theorem runWord_agree (h : s.agree s') (w : Word) : OutcomesAgree (runWord w s) (runWord w s') := by
  unfold runWord
  split
  · exact exec_agree h _
  · exact .next (h.setStatus _)

theorem State.agree.accept (h : s.agree s') (rest : List HostEvent) : (s.accept rest).agree (s'.accept rest) := by
  obtain ⟨f, hf, rfl⟩ := (s.agree_iff s').1 h
  exact ⟨hf, rfl⟩

theorem State.agree.returnData (h : s.agree s') (v : Word) : (s.returnData v).agree (s'.returnData v) := by
  obtain ⟨f, hf, rfl⟩ := (s.agree_iff s').1 h
  exact ⟨hf, rfl⟩

theorem State.agree.assertReset (h : s.agree s') : s.assertReset.agree s'.assertReset := by
  obtain ⟨f, hf, rfl⟩ := (s.agree_iff s').1 h
  exact ⟨hf, rfl⟩

/-- The release gives both framers the reset values (R59, R230). -/
theorem State.agree.releaseReset (h : s.agree s') : s.releaseReset.agree s'.releaseReset := by
  obtain ⟨f, hf, rfl⟩ := (s.agree_iff s').1 h
  unfold State.releaseReset
  dsimp only
  split
  · exact .refl _
  · exact h

/-- A host read returns nothing the two states differ in (R37). -/
theorem accessRead_agree (h : s.agree s') (a : Access) : accessRead s' a = accessRead s a := by
  obtain ⟨f, ⟨hcur, hprev, -⟩, rfl⟩ := (s.agree_iff s').1 h
  exact accessRead_withFr s hcur.symm hprev.symm a

theorem State.agree.accessWrite (h : s.agree s') (a : Access) (v : Word) :
    (accessWrite s a v).agree (accessWrite s' a v) := by
  obtain ⟨f, hf, rfl⟩ := (s.agree_iff s').1 h
  unfold Machine.accessWrite
  cases a.space with
  | reg => cases regAt a.addr <;> exact ⟨hf, rfl⟩
  | fbMem => exact ⟨hf, rfl⟩
  | srcMem => exact ⟨hf, rfl⟩

theorem accessAction_agree (h : s.agree s') (a : Access) : (accessAction s a).Agree (accessAction s' a) := by
  unfold accessAction
  split
  · rw [accessRead_agree h]
    exact .finished (h.returnData _)
  · split
    · exact .issue _ h
    · exact .finished (h.accessWrite a _)

theorem hostAction_agree (h : s.agree s') : (hostAction s).Agree (hostAction s') := by
  obtain ⟨f, hf, rfl⟩ := (s.agree_iff s').1 h
  have hadm : ∀ a, admitted { s with fr := f } a = admitted s a := fun _ => rfl
  unfold hostAction
  simp only [hadm]
  cases s.host with
  | nil => exact .still
  | cons e rest =>
    cases e with
    | resetAssert => exact .finished (h.accept rest).assertReset
    | resetRelease => exact .finished (h.accept rest).releaseReset
    | access a =>
      dsimp only
      split_ifs
      · exact .busError
      · exact .still
      · exact accessAction_agree (h.accept rest) a
      · exact .busError
    | commandCutByReset w =>
      dsimp only
      split_ifs
      · exact .busError
      · exact .still
      · exact .finished (h.accept rest).assertReset

theorem step_agree (h : s.agree s') : OutcomesAgree (step s) (step s') := by
  unfold step
  have haction := hostAction_agree h
  generalize hostAction s = x, hostAction s' = y at haction
  cases haction with
  | still => exact .next h
  | finished ht => exact .next ht
  | busError => exact .fault _
  | issue w ht => exact runWord_agree ht w

end

/-- Settles O20: agreement goes through the host's next event and, at a CMD write, through the command. -/
theorem staleFrameBytesAreNeverSeen : Obligations.StaleFrameBytesAreNeverSeen := by
  intro s s' h
  refine ⟨fun t ht => ?_, fun r hr => ?_, fun r hr => ?_⟩
  · exact (ht ▸ step_agree h).next_right
  · exact (hr ▸ step_agree h).fault_right
  · exact (hr ▸ step_agree h).refused_right

/-! ### What a command can come to -/

/-- A part of a command came to a state with `P` where it is done, with `Q` where it waits. -/
def Progress.leaves (P Q : State → Prop) : Progress → Prop
  | .done _ t => P t
  | .waiting t => Q t

/-- From states with `P`, the loop of FLUSH leaves what each of its pushes leaves. -/
theorem flushLoop_leaves {P Q : State → Prop} (hpush : ∀ cb d s, P s → (pushByte cb d s).leaves P Q)
    (fuel : Nat) (ok : Bool) (cb : Bit) (noop : Byte) {s : State} (h : P s) :
    (flushLoop fuel ok cb noop s).leaves P Q := by
  induction fuel generalizing ok s with
  | zero => exact h
  | succ n ih =>
    unfold flushLoop
    split
    · exact h
    · have hp := hpush cb noop s h
      generalize pushByte cb noop s = p at hp
      cases p with
      | done ok' t => exact ih ok' hp
      | waiting t => exact hp

/-- From states with `P`, the loop of SENDF leaves what each of its pushes leaves. -/
theorem pushAll_leaves {P Q : State → Prop} (hpush : ∀ cb d s, P s → (pushByte cb d s).leaves P Q)
    (cb : Bit) (bytes : List Byte) {s : State} (h : P s) : (pushAll cb bytes s).leaves P Q := by
  induction bytes generalizing s with
  | nil => exact h
  | cons b rest ih =>
    unfold pushAll
    have hp := hpush cb b s h
    generalize pushByte cb b s = p at hp
    cases p with
    | done ok t =>
      cases ok with
      | true => exact ih hp
      | false => exact hp
    | waiting t => exact hp

/-- `t` is `s` after transactions that were all answered and logged, and `pending` more handed over (R206). -/
def State.handedOver (s t : State) (pending : Nat) : Prop :=
  s.onlyTransported t ∧ ∃ sent, t.log = s.log ++ sent ∧ t.asked = s.asked + sent.length + pending

/-- `t` is `s` after transactions that were all answered (R56, R206). -/
def State.answered (s t : State) : Prop := s.handedOver t 0 ∧ t.phase = s.phase

/-- `t` is `s` after transactions of which the last is in progress (R236). -/
def State.waitsFrom (s t : State) : Prop := s.handedOver t 1 ∧ t.phase ≠ .idle

theorem State.handedOver.refl (s : State) : s.handedOver s 0 := ⟨.refl s, [], by simp, rfl⟩

theorem State.handedOver.trans {s t u : State} {n : Nat} (h1 : s.handedOver t 0) (h2 : t.handedOver u n) :
    s.handedOver u n := by
  obtain ⟨hst, sent, hlog, hasked⟩ := h1
  obtain ⟨htu, more, hlog', hasked'⟩ := h2
  refine ⟨hst.trans htu, sent ++ more, by rw [hlog', hlog, List.append_assoc], ?_⟩
  rw [hasked', hasked, List.length_append]
  omega

theorem State.answered.refl (s : State) : s.answered s := ⟨.refl s, rfl⟩

/-- The transaction of a command is logged where it is answered, and only there (R206, R236). -/
theorem transmit_leaves (s : State) (bytes : List Byte) : (transmit s bytes).leaves s.answered s.waitsFrom := by
  rcases transmit_cases s bytes with ⟨ok, -, e⟩ | ⟨-, e⟩ <;> rw [e]
  · exact ⟨⟨rfl, [⟨bytes, ok⟩], rfl, rfl⟩, rfl⟩
  · exact ⟨⟨rfl, [], (List.append_nil _).symm, rfl⟩, nofun⟩

theorem pushByte_leaves (cb : Bit) (d : Byte) (s : State) : (pushByte cb d s).leaves s.answered s.waitsFrom := by
  rcases pushByte_cases cb d s with ⟨-, e⟩ | ⟨-, ok, -, e⟩ | ⟨-, -, e⟩ <;> rw [e]
  · exact ⟨⟨rfl, [], (List.append_nil _).symm, rfl⟩, rfl⟩
  · exact ⟨⟨rfl, [_], rfl, rfl⟩, rfl⟩
  · exact ⟨⟨rfl, [], (List.append_nil _).symm, rfl⟩, nofun⟩

/-- One push after another adds its own transaction to those before. -/
theorem pushByte_leaves_from (s : State) (cb : Bit) (d : Byte) (t : State) (h : s.answered t) :
    (pushByte cb d t).leaves s.answered s.waitsFrom := by
  obtain ⟨hst, hphase⟩ := h
  have hp := pushByte_leaves cb d t
  generalize pushByte cb d t = p at hp
  cases p with
  | done ok u => exact ⟨hst.trans hp.1, hp.2.trans hphase⟩
  | waiting u => exact ⟨hst.trans hp.1, hp.2⟩

/-- Everything a command can leave: it ends with a code after its transactions, if it made any, or waits in the last of
them; the utilities write RESULT too, and a compositing command that is not refused FBMEM. -/
inductive CommandLeaves (s : State) : Instr → State → Prop where
  | result (i : Instr) (v : Byte) (hi : (∃ b, i = .revbits b) ∨ ∃ b, i = .quant4 b) :
      CommandLeaves s i (s.setResult v).succeed
  | painted (i : Instr) (mode : BlendMode) (hi : i = .compx ∨ i = .compw ∨ i = .compl) (hg : s.geomOK = true) :
      CommandLeaves s i (State.succeed { s with fbMem := paint s mode })
  | ended (i : Instr) (e : ErrorCode) {t : State} (h : s.answered t) : CommandLeaves s i (t.setStatus e)
  | waiting (i : Instr) {t : State} (h : s.waitsFrom t) : CommandLeaves s i t

section
variable {s t : State} {i : Instr}

theorem CommandLeaves.of_endTransport {p : Progress} (hp : p.leaves s.answered s.waitsFrom)
    (h : endTransport p = .next t) : CommandLeaves s i t := by
  cases p with
  | done ok u =>
    cases ok <;> cases h
    · exact .ended i _ hp
    · exact .ended i _ hp
  | waiting u =>
    cases h
    exact .waiting i hp

theorem CommandLeaves.of_composite {mode : BlendMode} (hi : i = .compx ∨ i = .compw ∨ i = .compl)
    (h : composite mode s = .next t) : CommandLeaves s i t := by
  rcases composite_cases mode s with ⟨hc, e⟩ | ⟨-, e⟩ <;> rw [e] at h <;> cases h
  · obtain ⟨hg, -, -⟩ := (compositeCheck_eq_none_iff s).1 hc
    exact .painted i mode hi hg
  · exact .ended i _ (.refl s)

theorem CommandLeaves.of_execSendr (h : execSendr s = .next t) : CommandLeaves s i t := by
  unfold execSendr at h
  split at h
  · exact .of_endTransport (transmit_leaves s _) h
  · cases h
    exact .ended i _ (.refl s)

theorem CommandLeaves.of_execSendf {cb : Bit} (h : execSendf cb s = .next t) : CommandLeaves s i t := by
  unfold execSendf at h
  split at h
  · exact .of_endTransport (pushAll_leaves (pushByte_leaves_from s) cb _ (.refl s)) h
  · cases h
    exact .ended i _ (.refl s)

theorem exec_leaves (h : exec i s = .next t) : CommandLeaves s i t := by
  cases i with
  | push cb d => exact .of_endTransport (pushByte_leaves cb d s) h
  | flush cb noop => exact .of_endTransport (flushLoop_leaves (pushByte_leaves_from s) 8 true cb noop (.refl s)) h
  | compx => exact .of_composite (.inl rfl) h
  | compw => exact .of_composite (.inr (.inl rfl)) h
  | compl => exact .of_composite (.inr (.inr rfl)) h
  | revbits b =>
    cases h
    exact .result _ _ (.inl ⟨b, rfl⟩)
  | quant4 b =>
    cases h
    exact .result _ _ (.inr ⟨b, rfl⟩)
  | sendr => exact .of_execSendr h
  | sendf cb => exact .of_execSendf h

end

/-- Settles O48, by what a command can leave. -/
theorem commandsKeepTheirFrame : Obligations.CommandsKeepTheirFrame := by
  intro i s t h
  cases exec_leaves h with
  | result v hi =>
    refine ⟨⟨_, _, _, rfl⟩, fun hr hq => ?_, fun _ _ _ => rfl, rfl, rfl, rfl, rfl, rfl, rfl, rfl⟩
    rcases hi with ⟨b, hb⟩ | ⟨b, hb⟩
    · exact absurd hb (hr b)
    · exact absurd hb (hq b)
  | painted mode hi hg =>
    refine ⟨⟨_, _, _, rfl⟩, fun _ _ => rfl, fun hx hw hl => ?_, paint_size hg mode, paint_draw hg mode, rfl, rfl, rfl,
      rfl, rfl⟩
    rcases hi with hi | hi | hi
    · exact absurd hi hx
    · exact absurd hi hw
    · exact absurd hi hl
  | ended e hu =>
    obtain ⟨⟨hframe, -⟩, -⟩ := hu
    rw [hframe]
    exact ⟨⟨_, _, _, rfl⟩, fun _ _ => rfl, fun _ _ _ => rfl, rfl, rfl, rfl, rfl, rfl, rfl, rfl⟩
  | waiting hw =>
    obtain ⟨⟨hframe, -⟩, -⟩ := hw
    rw [hframe]
    exact ⟨⟨_, _, _, rfl⟩, fun _ _ => rfl, fun _ _ _ => rfl, rfl, rfl, rfl, rfl, rfl, rfl, rfl⟩

/-- STATUS is legal where LAST_OK = 1 exactly when LAST_ERR = 0, and LAST_ERR is no reserved code (R35, R201). -/
theorem Regs.statusLegal_iff (r : Regs) :
    r.statusLegal = true ↔ (r.lastOk = 1 ↔ r.lastErr = 0) ∧ r.lastErr.toNat ≤ 5 := by
  simp only [Regs.statusLegal, Bool.and_eq_true, decide_eq_true_eq, and_comm]

/-- A command that ends in idle has written STATUS, legally, and one that waits has written no register (R35, R236). -/
theorem CommandLeaves.status_legal_or_waiting {s t : State} {i : Instr} (h : CommandLeaves s i t) :
    (t.phase = s.phase ∧ t.reg.statusLegal = true) ∨ (t.phase ≠ .idle ∧ t.reg = s.reg) := by
  cases h with
  | result v hi => exact .inl ⟨rfl, State.setStatus_statusLegal _ .none⟩
  | painted mode hi hg => exact .inl ⟨rfl, State.setStatus_statusLegal _ .none⟩
  | ended e hu => exact .inl ⟨hu.2, State.setStatus_statusLegal _ e⟩
  | waiting hw => exact .inr ⟨hw.2, by rw [hw.1.1]⟩

/-- An illegal word has written STATUS too (R105). -/
theorem runWord_status_legal_or_waiting {w : Word} {s t : State} (h : runWord w s = .next t) :
    (t.phase = s.phase ∧ t.reg.statusLegal = true) ∨ (t.phase ≠ .idle ∧ t.reg = s.reg) := by
  unfold runWord at h
  split at h
  · exact (exec_leaves h).status_legal_or_waiting
  · cases h
    exact .inl ⟨rfl, s.setStatus_statusLegal .illegalCmd⟩

/-- Settles O49. -/
theorem everyEndedCommandLeavesALegalStatus : Obligations.EveryEndedCommandLeavesALegalStatus := by
  intro w s t hidle h
  rcases runWord_status_legal_or_waiting h with ⟨hphase, hlegal⟩ | ⟨hwaits, hreg⟩
  · exact ⟨fun _ => t.reg.statusLegal_iff.1 hlegal, fun hne => absurd (hphase.trans hidle) hne⟩
  · exact ⟨fun hidle' => absurd hidle' hwaits, fun _ => hreg⟩

/-- Settles O51: a command makes no transaction, or logs each that is answered, and waits for at most one. -/
theorem theLogOnlyGrows : Obligations.TheLogOnlyGrows := by
  intro i s t hidle h
  have hnone : ∃ sent, s.log = s.log ++ sent ∧ s.asked = s.asked + sent.length + (if s.phase = .idle then 0 else 1) :=
    ⟨[], by simp, by simp [hidle]⟩
  cases exec_leaves h with
  | result v hi => exact hnone
  | painted mode hi hg => exact hnone
  | ended e hu =>
    obtain ⟨⟨-, sent, hlog, hasked⟩, hphase⟩ := hu
    exact ⟨sent, hlog, by rw [State.setStatus_phase, hphase, if_pos hidle, State.setStatus_asked, hasked]⟩
  | waiting hw =>
    obtain ⟨⟨-, sent, hlog, hasked⟩, hphase⟩ := hw
    exact ⟨sent, hlog, by rw [if_neg hphase, hasked]⟩

end Sys2Proof.Machine

namespace Sys2Proof.Machine

/-! ### Which accesses are admitted -/

section
variable (s : State) {addr bytes : Nat} {d : Direction}

/-- R81: a REG access is 32 bits wide, at a multiple of 4 inside the 256 bytes. -/
theorem admitted_reg_iff :
    admitted s ⟨.reg, addr, bytes, d⟩ = true ↔ bytes = 4 ∧ addr % 4 = 0 ∧ addr < 256 := by
  simp only [admitted, Bool.and_eq_true, decide_eq_true_eq, and_assoc]

/-- R81: an access to FBMEM is of one byte, below its size. -/
theorem admitted_fbMem_iff : admitted s ⟨.fbMem, addr, bytes, d⟩ = true ↔ bytes = 1 ∧ addr < s.fbMem.size := by
  simp only [admitted, Bool.and_eq_true, decide_eq_true_eq]

/-- R81: an access to SRCMEM is of one byte, below its size. -/
theorem admitted_srcMem_iff : admitted s ⟨.srcMem, addr, bytes, d⟩ = true ↔ bytes = 1 ∧ addr < s.srcMem.size := by
  simp only [admitted, Bool.and_eq_true, decide_eq_true_eq]

end

/-! ### What an admitted access reads and writes -/

/-- What a read returns rests on no host event and no value returned before (R82). -/
theorem accessRead_accept (s : State) (rest : List HostEvent) (a : Access) :
    accessRead (s.accept rest) a = accessRead s a := by
  unfold accessRead
  cases a.space with
  | reg =>
    cases regAt a.addr with
    | some n => cases n <;> rfl
    | none => rfl
  | fbMem => rfl
  | srcMem => rfl

/-- A read at a register's offset returns that register (R32, R33). -/
theorem accessRead_regOffset (s : State) (n : RegName) (bytes : Nat) (d : Direction) :
    accessRead s ⟨.reg, regOffset n, bytes, d⟩ = readReg s n := by
  simp only [accessRead, regAt_regOffset]

/-- A reserved offset reads 0 (R71). -/
theorem accessRead_reserved (s : State) {addr : Nat} (bytes : Nat) (d : Direction) (h : 0x3C ≤ addr) :
    accessRead s ⟨.reg, addr, bytes, d⟩ = 0 := by
  simp only [accessRead, regAt_reserved h]

section
variable {s : State} {rest : List HostEvent}

/-- The step of an admitted read returns the value read and changes nothing else (R82). -/
theorem step_read {a : Access} (h : s.host = .access a :: rest) (hr : s.inReset = false) (hp : s.phase = .idle)
    (ha : admitted s a = true) (hd : a.dir = .read) :
    step s = .next { s with host := rest, readData := some (accessRead s a) } := by
  refine step_access h hr hp ha ?_
  simp only [accessAction, hd, accessRead_accept]
  rfl

/-- The step of an admitted byte write to FBMEM (R76, R86). -/
theorem step_fbMemWrite {addr : Nat} {v : Word} (h : s.host = .access ⟨.fbMem, addr, 1, .write v⟩ :: rest)
    (hr : s.inReset = false) (hp : s.phase = .idle) (ha : addr < s.fbMem.size) :
    step s = .next { s with host := rest, readData := none, fbMem := s.fbMem.write addr (v.setWidth 8) } :=
  step_access h hr hp ((admitted_fbMem_iff s).2 ⟨rfl, ha⟩) rfl

/-- The step of an admitted byte write to SRCMEM (R76, R86). -/
theorem step_srcMemWrite {addr : Nat} {v : Word} (h : s.host = .access ⟨.srcMem, addr, 1, .write v⟩ :: rest)
    (hr : s.inReset = false) (hp : s.phase = .idle) (ha : addr < s.srcMem.size) :
    step s = .next { s with host := rest, readData := none, srcMem := s.srcMem.write addr (v.setWidth 8) } :=
  step_access h hr hp ((admitted_srcMem_iff s).2 ⟨rfl, ha⟩) rfl

/-- An access that is not admitted ends with a bus error, in reset or out of it (R81, R216, R230). -/
theorem step_refused {a : Access} (h : s.host = .access a :: rest) (hp : s.phase = .idle)
    (ha : admitted s a = false) : step s = .fault .busError := by
  cases hr : s.inReset with
  | true => simp only [step, hostAction_access_inReset h hr]
  | false => simp only [step, hostAction_refused h hr hp ha]

end

/-- Settles O38: the clauses of the single registers follow from the one for every register at its offset. -/
theorem readsHaveNoSideEffects : Obligations.ReadsHaveNoSideEffects := by
  intro s sp addr bytes rest hhost hreset hidle
  refine ⟨?_, ?_, ?_⟩
  · rintro rfl rfl hal hlt
    have hat : ∀ n, regOffset n = addr → accessRead s ⟨.reg, addr, 4, .read⟩ = readReg s n := by
      rintro n rfl
      exact accessRead_regOffset s n 4 .read
    refine ⟨_, step_read hhost hreset hidle ((admitted_reg_iff s).2 ⟨rfl, hal, hlt⟩) rfl, hat, ?_,
      fun h => hat .status h.symm, fun h => hat .result h.symm, fun h => hat .framer h.symm,
      fun h => hat .fbLayout h.symm, fun h => hat .fbW h.symm, fun h => hat .fbH h.symm, fun h => hat .srcBase h.symm,
      fun h => hat .srcW h.symm, fun h => hat .srcH h.symm, fun h => hat .srcDepth h.symm, fun h => hat .xoff h.symm,
      fun h => hat .yoff h.symm, fun h => hat .fg h.symm, fun h => hat .bg h.symm⟩
    rintro (hcmd | hreserved)
    · exact hat .cmd hcmd.symm
    · exact accessRead_reserved s 4 .read hreserved
  · rintro rfl rfl hlt
    exact step_read hhost hreset hidle ((admitted_fbMem_iff s).2 ⟨rfl, hlt⟩) rfl
  · rintro rfl rfl hlt
    exact step_read hhost hreset hidle ((admitted_srcMem_iff s).2 ⟨rfl, hlt⟩) rfl

/-- Settles O42, by the laws of a memory. -/
theorem hostMemoryWritesAreRead : Obligations.HostMemoryWritesAreRead := by
  intro s addr v rest hreset hidle
  constructor <;> intro hhost hlt
  · exact ⟨_, step_fbMemWrite hhost hreset hidle hlt, s.fbMem.write_size _ _, s.fbMem.read_write_same _ _,
      fun _ hb => s.fbMem.read_write_other _ hb⟩
  · exact ⟨_, step_srcMemWrite hhost hreset hidle hlt, s.srcMem.write_size _ _, s.srcMem.read_write_same _ _,
      fun _ hb => s.srcMem.read_write_other _ hb⟩

/-- Settles O43: each form of access listed fails a condition of R81. -/
theorem badAccessesEndWithABusError : Obligations.BadAccessesEndWithABusError := by
  rintro s ⟨sp, addr, bytes, d⟩ rest hhost hidle hbad
  refine step_refused hhost hidle (Bool.eq_false_iff.2 fun ha => ?_)
  dsimp only at hbad
  rcases hbad with ⟨rfl, hbad⟩ | ⟨rfl, hbad⟩ | ⟨rfl, hbad⟩
  · have := (admitted_reg_iff s).1 ha
    omega
  · have := (admitted_fbMem_iff s).1 ha
    omega
  · have := (admitted_srcMem_iff s).1 ha
    omega

end Sys2Proof.Machine

namespace Sys2Proof

/-! ### The fields of a command word -/

/-- A word is its six fields (R101). -/
theorem word_ext {w v : Word} (hopc : opcField w = opcField v) (hrsvh : rsvhField w = rsvhField v)
    (hfunc : funcField w = funcField v) (hrsvl : rsvlField w = rsvlField v) (hcb : cbField w = cbField v)
    (hdata : dataField w = dataField v) : w = v := by
  have hfields : ∀ u : Word,
      u = opcField u ++ rsvhField u ++ funcField u ++ rsvlField u ++ cbField u ++ dataField u := fun u => by
    apply BitVec.eq_of_getLsbD_eq
    intro k hk
    simp only [opcField, rsvhField, funcField, rsvlField, cbField, dataField, BitVec.getLsbD_append,
      BitVec.getLsbD_extractLsb']
    grind
  rw [hfields w, hfields v, hopc, hrsvh, hfunc, hrsvl, hcb, hdata]

/-- Each field of a packed word is the one packed, the reserved ones 0 (R101). -/
theorem packWord_fields (opc func : BitVec 4) (cb : Bit) (data : Byte) :
    opcField (packWord opc func cb data) = opc ∧ rsvhField (packWord opc func cb data) = 0 ∧
      funcField (packWord opc func cb data) = func ∧ rsvlField (packWord opc func cb data) = 0 ∧
      cbField (packWord opc func cb data) = cb ∧ dataField (packWord opc func cb data) = data := by
  refine ⟨?_, ?_, ?_, ?_, ?_, ?_⟩ <;>
  · apply BitVec.eq_of_getLsbD_eq
    intro k hk
    simp only [opcField, rsvhField, funcField, rsvlField, cbField, dataField, packWord, BitVec.getLsbD_append,
      BitVec.getLsbD_extractLsb']
    grind

section
variable (opc func : BitVec 4) (cb : Bit) (data : Byte)

@[simp] theorem opcField_packWord : opcField (packWord opc func cb data) = opc :=
  (packWord_fields opc func cb data).1
@[simp] theorem rsvhField_packWord : rsvhField (packWord opc func cb data) = 0 :=
  (packWord_fields opc func cb data).2.1
@[simp] theorem funcField_packWord : funcField (packWord opc func cb data) = func :=
  (packWord_fields opc func cb data).2.2.1
@[simp] theorem rsvlField_packWord : rsvlField (packWord opc func cb data) = 0 :=
  (packWord_fields opc func cb data).2.2.2.1
@[simp] theorem cbField_packWord : cbField (packWord opc func cb data) = cb :=
  (packWord_fields opc func cb data).2.2.2.2.1
@[simp] theorem dataField_packWord : dataField (packWord opc func cb data) = data :=
  (packWord_fields opc func cb data).2.2.2.2.2

/-- A word with its reserved fields 0 packs its other fields (R101). -/
theorem packWord_eq {w : Word} (hopc : opcField w = opc) (hrsvh : rsvhField w = 0) (hfunc : funcField w = func)
    (hrsvl : rsvlField w = 0) (hcb : cbField w = cb) (hdata : dataField w = data) :
    packWord opc func cb data = w :=
  word_ext (by simp [hopc]) (by simp [hrsvh]) (by simp [hfunc]) (by simp [hrsvl]) (by simp [hcb]) (by simp [hdata])

end

/-! ### The round trip -/

/-- What the compositor row of the decoder reads, by FUNC (R110); the lemmas of the other two rows follow. -/
theorem decodeCompositor_eq_command {func : BitVec 4} {i : Instr} (h : decodeCompositor func = .command i) :
    (func = 0 ∧ i = .compx) ∨ (func = 1 ∧ i = .compw) ∨ (func = 2 ∧ i = .compl) := by
  unfold decodeCompositor at h
  split_ifs at h <;> simp_all

theorem decodeUtility_eq_command {func : BitVec 4} {data : Byte} {i : Instr}
    (h : decodeUtility func data = .command i) :
    (func = 0 ∧ i = .revbits data) ∨ (func = 1 ∧ i = .quant4 data) := by
  unfold decodeUtility at h
  split_ifs at h <;> simp_all

theorem decodeSerialiser_eq_command {func : BitVec 4} {cb : Bit} {i : Instr}
    (h : decodeSerialiser func cb = .command i) :
    (func = 0 ∧ cb = 0 ∧ i = .sendr) ∨ (func = 1 ∧ i = .sendf cb) := by
  unfold decodeSerialiser at h
  split_ifs at h <;> simp_all

/-- Settles O1: the fields of a command's word choose the arm of the decoder that reads the command back. -/
theorem decodeOfEncodeIsTheCommand : Obligations.DecodeOfEncodeIsTheCommand := by
  intro i _
  cases i with
  | push cb data => simp [encode, decode]
  | flush cb noop => simp [encode, decode]
  | compx => simp [encode, decode, decodeCompositor]
  | compw => simp [encode, decode, decodeCompositor]
  | compl => simp [encode, decode, decodeCompositor]
  | revbits byte => simp [encode, decode, decodeUtility]
  | quant4 byte => simp [encode, decode, decodeUtility]
  | sendr => simp [encode, decode, decodeSerialiser]
  | sendf cb => simp [encode, decode, decodeSerialiser]

/-- Settles O2: each arm of the decoder that answers with a command has found every field of that command's word. -/
theorem encodeOfDecodeIsTheWord : Obligations.EncodeOfDecodeIsTheWord := by
  intro w i h
  simp only [decode, ne_eq, ite_not] at h
  split_ifs at h with hrsvh hrsvl hpush hfunc hflush hfunc hcomp hcb hdata hutil hcb hser hdata
  · cases h
    exact packWord_eq _ _ _ _ hpush hrsvh hfunc hrsvl rfl rfl
  · cases h
    exact packWord_eq _ _ _ _ hflush hrsvh hfunc hrsvl rfl rfl
  · rcases decodeCompositor_eq_command h with ⟨hfunc, rfl⟩ | ⟨hfunc, rfl⟩ | ⟨hfunc, rfl⟩ <;>
      exact packWord_eq _ _ _ _ hcomp hrsvh hfunc hrsvl hcb hdata
  · rcases decodeUtility_eq_command h with ⟨hfunc, rfl⟩ | ⟨hfunc, rfl⟩ <;>
      exact packWord_eq _ _ _ _ hutil hrsvh hfunc hrsvl hcb rfl
  · rcases decodeSerialiser_eq_command h with ⟨hfunc, hcb, rfl⟩ | ⟨hfunc, rfl⟩
    · exact packWord_eq _ _ _ _ hser hrsvh hfunc hrsvl hcb hdata
    · exact packWord_eq _ _ _ _ hser hrsvh hfunc hrsvl rfl hdata

theorem decode_eq_command_iff {w : Word} {i : Instr} : decode w = .command i ↔ encode i = w :=
  ⟨encodeOfDecodeIsTheWord w i, by
    rintro rfl
    exact decodeOfEncodeIsTheCommand i (by cases i <;> rfl)⟩

/-! ### The match and mask table -/

/-- Every command has its row in the table, and every row is a command's (R104). -/
theorem mem_opcodeTable_iff {r : OpcodeRow} : r ∈ opcodeTable ↔ ∃ i : Instr, i.row = r := by
  constructor
  · simp only [opcodeTable, List.mem_cons, List.not_mem_nil, or_false]
    rintro (rfl | rfl | rfl | rfl | rfl | rfl | rfl | rfl | rfl) <;> exact ⟨_, rfl⟩
  · rintro ⟨i, rfl⟩
    cases i <;> simp [opcodeTable, Instr.row]

/-- A command's word matches the command's row (R104). -/
theorem row_matchesWord_encode (i : Instr) : i.row.matchesWord (encode i) = true := by
  refine beq_iff_eq.2 ?_
  cases i with
  | push cb data => exact Laws.EncodeMatchesTable.push cb data
  | flush cb noop => exact Laws.EncodeMatchesTable.flush cb noop
  | compx => exact Laws.EncodeMatchesTable.compx
  | compw => exact Laws.EncodeMatchesTable.compw
  | compl => exact Laws.EncodeMatchesTable.compl
  | revbits byte => exact Laws.EncodeMatchesTable.revbits byte
  | quant4 byte => exact Laws.EncodeMatchesTable.quant4 byte
  | sendr => exact Laws.EncodeMatchesTable.sendr
  | sendf cb => exact Laws.EncodeMatchesTable.sendf cb

/-- The command of the same row with other operands, those its row leaves open (R102, R103). -/
def Instr.withOperands (cb : Bit) (data : Byte) : Instr → Instr
  | .push _ _ => .push cb data
  | .flush _ _ => .flush cb data
  | .compx => .compx
  | .compw => .compw
  | .compl => .compl
  | .revbits _ => .revbits data
  | .quant4 _ => .quant4 data
  | .sendr => .sendr
  | .sendf _ => .sendf cb

theorem Instr.row_withOperands (i : Instr) (cb : Bit) (data : Byte) : (i.withOperands cb data).row = i.row := by
  cases i <;> rfl

/-- Every row fixes OPC and FUNC and both reserved fields (R102, R104). -/
theorem opcodeTable_mask_fields : ∀ r ∈ opcodeTable,
    opcField r.mask = BitVec.allOnes 4 ∧ rsvhField r.mask = BitVec.allOnes 12 ∧ funcField r.mask = BitVec.allOnes 4 ∧
      rsvlField r.mask = BitVec.allOnes 3 := by decide

/-- The row of a command fixes CB, or CB is an operand of the command (R102, R103). -/
theorem cb_fixed_or_operand (i : Instr) (cb : Bit) (data : Byte) :
    cbField i.row.mask = BitVec.allOnes 1 ∨ cbField (encode (i.withOperands cb data)) = cb := by
  cases i with
  | push | flush | sendf => exact .inr (by simp [Instr.withOperands, encode])
  | _ =>
    simp only [Instr.row]
    exact .inl (by decide)

/-- The row of a command fixes DATA, or DATA is an operand of the command (R102, R103). -/
theorem data_fixed_or_operand (i : Instr) (cb : Bit) (data : Byte) :
    dataField i.row.mask = BitVec.allOnes 8 ∨ dataField (encode (i.withOperands cb data)) = data := by
  cases i with
  | push | flush | revbits | quant4 => exact .inr (by simp [Instr.withOperands, encode])
  | _ =>
    simp only [Instr.row]
    exact .inl (by decide)

/-- Words alike under a mask are alike in every field the mask fixes. -/
theorem extractLsb'_eq_of_mask {w v mask : Word} (h : w &&& mask = v &&& mask) {start len : Nat}
    (hmask : mask.extractLsb' start len = BitVec.allOnes len) : w.extractLsb' start len = v.extractLsb' start len := by
  have hfield := congrArg (BitVec.extractLsb' start len) h
  rwa [BitVec.extractLsb'_and, BitVec.extractLsb'_and, hmask, BitVec.and_allOnes, BitVec.and_allOnes] at hfield

/-- A word that matches a row is the word of that row's command with the operands the word holds: the two agree in the
fields the row fixes, since both match it, and in the others by the choice of the operands (R103, R104). -/
theorem encode_withOperands_of_matchesWord {i : Instr} {w : Word} (h : i.row.matchesWord w = true) :
    encode (i.withOperands (cbField w) (dataField w)) = w := by
  have hown := row_matchesWord_encode (i.withOperands (cbField w) (dataField w))
  rw [Instr.row_withOperands] at hown
  have hmask := (beq_iff_eq.1 hown).trans (beq_iff_eq.1 h).symm
  obtain ⟨hopc, hrsvh, hfunc, hrsvl⟩ := opcodeTable_mask_fields _ (mem_opcodeTable_iff.2 ⟨i, rfl⟩)
  exact word_ext (extractLsb'_eq_of_mask hmask hopc) (extractLsb'_eq_of_mask hmask hrsvh)
    (extractLsb'_eq_of_mask hmask hfunc) (extractLsb'_eq_of_mask hmask hrsvl)
    ((cb_fixed_or_operand i _ _).elim (extractLsb'_eq_of_mask hmask) id)
    ((data_fixed_or_operand i _ _).elim (extractLsb'_eq_of_mask hmask) id)

/-- Settles O3. -/
theorem decoderAgreesWithTheMatchTable : Obligations.DecoderAgreesWithTheMatchTable := by
  intro w r hr
  constructor
  · intro hmatch
    obtain ⟨i, rfl⟩ := mem_opcodeTable_iff.1 hr
    exact ⟨_, decode_eq_command_iff.2 (encode_withOperands_of_matchesWord hmatch), i.row_withOperands _ _⟩
  · rintro ⟨i, hdecode, rfl⟩
    obtain rfl := decode_eq_command_iff.1 hdecode
    exact row_matchesWord_encode i

/-- Settles O4: both rows are that of the one command the word decodes to. -/
theorem noWordMatchesTwoRows : Obligations.NoWordMatchesTwoRows := by
  intro w r hr q hq hrw hqw
  obtain ⟨i, hi, rfl⟩ := (decoderAgreesWithTheMatchTable w r hr).1 hrw
  obtain ⟨j, hj, rfl⟩ := (decoderAgreesWithTheMatchTable w q hq).1 hqw
  cases hi.symm.trans hj
  rfl

/-- A word of no row decodes to no command (R105). -/
theorem decode_ne_command_of_unmatched {w : Word} (h : ∀ r ∈ opcodeTable, r.matchesWord w = false) (i : Instr) :
    decode w ≠ .command i := by
  intro hi
  have hrow := mem_opcodeTable_iff.2 ⟨i, rfl⟩
  have := (decoderAgreesWithTheMatchTable w i.row hrow).2 ⟨i, hi, rfl⟩
  rw [h _ hrow] at this
  exact Bool.false_ne_true this

/-- R105's list of words that are no command, in terms of the fields. -/
def listedIllegal (w : Word) : Prop :=
  opcField w = 0 ∨ 6 ≤ (opcField w).toNat ∨ rsvhField w ≠ 0 ∨ rsvlField w ≠ 0 ∨
  ((opcField w = 1 ∨ opcField w = 2) ∧ funcField w ≠ 0) ∨
  (opcField w = 3 ∧ 3 ≤ (funcField w).toNat) ∨
  ((opcField w = 4 ∨ opcField w = 5) ∧ 2 ≤ (funcField w).toNat) ∨
  (opcField w = 3 ∧ (cbField w ≠ 0 ∨ dataField w ≠ 0)) ∨
  (opcField w = 4 ∧ cbField w ≠ 0) ∨
  (opcField w = 5 ∧ (dataField w ≠ 0 ∨ (funcField w = 0 ∧ cbField w ≠ 0)))

/-- No command's word is on R105's list. -/
theorem not_listedIllegal_encode (i : Instr) : ¬ listedIllegal (encode i) := by
  unfold listedIllegal
  cases i <;> simp [encode]

/-- Settles O5. -/
theorem illegalWordsChangeStatusOnly : Obligations.IllegalWordsChangeStatusOnly := by
  refine ⟨fun w hw => ⟨?_, fun s => Machine.runWord_illegal s (decode_ne_command_of_unmatched hw)⟩, ?_⟩
  · cases hd : decode w with
    | command i => exact absurd hd (decode_ne_command_of_unmatched hw i)
    | illegal why => exact ⟨why, rfl⟩
  · intro w hlisted r hr
    by_contra hmatch
    obtain ⟨i, hi, -⟩ := (decoderAgreesWithTheMatchTable w r hr).1 (Bool.eq_true_of_not_eq_false hmatch)
    obtain rfl := decode_eq_command_iff.1 hi
    exact not_listedIllegal_encode i hlisted

/-- Settles O6, by evaluation of the decoder. -/
theorem specWordsDecode : Obligations.SpecWordsDecode := by
  unfold Obligations.SpecWordsDecode
  decide

end Sys2Proof

namespace Sys2Proof.Machine

/-! ### The host accesses of a statement -/

/-- A statement assembles when its operands are in range, to the events of its expansion in order (R108, R109). -/
theorem assemble_eq_some_iff {st : Statement} {evs : List HostEvent} :
    assemble st = some evs ↔ st.wellFormed = true ∧ (expandStatement st).filterMap statementEvent = evs := by
  simp [assemble]

theorem fitsField_iff {bits n : Nat} : fitsField bits n = true ↔ n < 2 ^ bits := decide_eq_true_iff

theorem fitsOffset_iff {x : Int} : fitsOffset x = true ↔ -32768 ≤ x ∧ x ≤ 32767 := decide_eq_true_iff

theorem fitsColour_iff {mono r g b : Nat} :
    fitsColour mono r g b = true ↔ mono < 2 ^ 1 ∧ r < 2 ^ 4 ∧ g < 2 ^ 4 ∧ b < 2 ^ 4 := by
  simp only [fitsColour, Bool.and_eq_true, fitsField_iff, and_assoc]

/-- The host access of `WR reg, value` (R108). -/
def regWrite (w : RegName × Nat) : HostEvent := .access ⟨.reg, regOffset w.1, 4, .write (BitVec.ofNat 32 w.2)⟩

/-! ### Register writes, one after another -/

/-- The registers after a list of writes (R33). -/
def writeRegs (r : Regs) (ws : List (RegName × Nat)) : Regs :=
  ws.foldl (fun r w => writeReg r (BitVec.ofNat 32 w.2) w.1) r

/-- Steps that a list of register writes takes leave the registers written and change nothing else (R33). -/
theorem runSteps_regWrites {s : State} {ws : List (RegName × Nat)} {rest : List HostEvent} (more : Nat)
    (h : s.host = ws.map regWrite ++ rest) (hr : s.inReset = false) (hp : s.phase = .idle)
    (hcmd : ∀ w ∈ ws, w.1 ≠ .cmd) (hne : ws ≠ []) :
    runSteps (ws.length + more) s =
      runSteps more { s with host := rest, readData := none, reg := writeRegs s.reg ws } := by
  induction ws generalizing s with
  | nil => exact absurd rfl hne
  | cons w ws ih =>
    have hstep := step_regWrite (rest := ws.map regWrite ++ rest) h hr hp (hcmd w (by simp))
    rw [List.length_cons, Nat.add_right_comm, runSteps_succ hstep]
    cases ws with
    | nil => simp [writeRegs]
    | cons w' ws => exact ih rfl hr hp (fun v hv => hcmd v (by simp [hv])) (by simp)

/-- A register field holds the operand written to it, if the operand fits (R33, R108). -/
theorem toNat_setWidth_ofNat {bits v : Nat} (hbits : bits ≤ 32) (hv : v < 2 ^ bits) :
    ((BitVec.ofNat 32 v).setWidth bits).toNat = v := by
  have h32 : v < 2 ^ 32 := hv.trans_le (Nat.pow_le_pow_right (by decide) hbits)
  rw [BitVec.toNat_setWidth, BitVec.toNat_ofNat, Nat.mod_eq_of_lt h32, Nat.mod_eq_of_lt hv]

/-- XOFF and YOFF hold the signed operand of SETOFF (R45, R46, R109). -/
theorem toInt_setWidth_ofNat_emod {x : Int} (h : -32768 ≤ x ∧ x ≤ 32767) :
    ((BitVec.ofNat 32 (x % 65536).toNat).setWidth 16).toInt = x := by
  have hlt : (x % 65536).toNat < 2 ^ 16 := by omega
  rw [BitVec.toInt_eq_toNat_cond, toNat_setWidth_ofNat (by decide) hlt]
  omega

/-- What a colour pseudo-instruction writes is the word of the colour it names (R47, R109). -/
theorem colourValue_toNat (c : Colour) : colourValue c.mono.toNat c.r.toNat c.g.toNat c.b.toNat = c.word.toNat := by
  simp only [colourValue, Colour.word, BitVec.toNat_append, Nat.shiftLeft_or_distrib, ← Nat.shiftLeft_add]
  simp

/-- A colour register reads back the colour whose word is written to it (R47). -/
theorem Colour.ofWord_word (c : Colour) : Colour.ofWord c.word = c := by
  obtain ⟨mono, r, g, b⟩ := c
  simp only [Colour.ofWord, Colour.word, Colour.mk.injEq]
  refine ⟨?_, ?_, ?_, ?_⟩ <;>
  · apply BitVec.eq_of_getLsbD_eq
    intro k hk
    simp only [BitVec.getLsbD_append, BitVec.getLsbD_extractLsb']
    grind

/-- A colour register holds the operands of the colour pseudo-instruction that wrote it (R47, R109). -/
theorem Colour.ofWord_colourValue {mono r g b : Nat} (h : fitsColour mono r g b = true) :
    Colour.ofWord (BitVec.ofNat 32 (colourValue mono r g b)) =
      ⟨BitVec.ofNat 1 mono, BitVec.ofNat 4 r, BitVec.ofNat 4 g, BitVec.ofNat 4 b⟩ := by
  obtain ⟨hmono, hr, hg, hb⟩ := fitsColour_iff.1 h
  have hword := colourValue_toNat ⟨BitVec.ofNat 1 mono, BitVec.ofNat 4 r, BitVec.ofNat 4 g, BitVec.ofNat 4 b⟩
  simp only [BitVec.toNat_ofNat, Nat.mod_eq_of_lt hmono, Nat.mod_eq_of_lt hr, Nat.mod_eq_of_lt hg,
    Nat.mod_eq_of_lt hb] at hword
  rw [hword, BitVec.ofNat_toNat, BitVec.setWidth_eq, Colour.ofWord_word]

/-- The four fields of a colour register are the operands as they were written (R47, R109). -/
theorem Colour.toNat_ofWord_colourValue {mono r g b : Nat} (h : fitsColour mono r g b = true) :
    (Colour.ofWord (BitVec.ofNat 32 (colourValue mono r g b))).mono.toNat = mono ∧
      (Colour.ofWord (BitVec.ofNat 32 (colourValue mono r g b))).r.toNat = r ∧
      (Colour.ofWord (BitVec.ofNat 32 (colourValue mono r g b))).g.toNat = g ∧
      (Colour.ofWord (BitVec.ofNat 32 (colourValue mono r g b))).b.toNat = b := by
  obtain ⟨hmono, hr, hg, hb⟩ := fitsColour_iff.1 h
  rw [Colour.ofWord_colourValue h]
  exact ⟨Nat.mod_eq_of_lt hmono, Nat.mod_eq_of_lt hr, Nat.mod_eq_of_lt hg, Nat.mod_eq_of_lt hb⟩

/-- A pseudo-instruction that expands to register writes runs as those writes (R108, R109). -/
theorem runSteps_assembled_writes {st : Statement} {s : State} {evs rest : List HostEvent}
    (ws : List (RegName × Nat)) (hasm : assemble st = some evs)
    (hexpand : expandStatement st = ws.map fun w => .wr w.1 w.2) (h : s.host = evs ++ rest) (hr : s.inReset = false)
    (hp : s.phase = .idle) (hcmd : ∀ w ∈ ws, w.1 ≠ .cmd) (hne : ws ≠ []) :
    runSteps ws.length s = .next { s with host := rest, readData := none, reg := writeRegs s.reg ws } := by
  obtain ⟨-, rfl⟩ := assemble_eq_some_iff.1 hasm
  have hevs : (expandStatement st).filterMap statementEvent = ws.map regWrite := by
    rw [hexpand, List.filterMap_map]
    exact congrFun List.filterMap_eq_map ws
  exact runSteps_regWrites 0 (hevs ▸ h) hr hp hcmd hne

/-- Settles O36: each expansion is a list of register writes, and each field it names holds an operand that fits it. -/
theorem pseudoInstructionsFillTheirFields : Obligations.PseudoInstructionsFillTheirFields := by
  intro s evs rest hhost hreset hidle
  refine ⟨?setfb, ?setsrc, ?setoff, ?setfg, ?setbg⟩
  case setfb =>
    intro layout w h hasm
    obtain ⟨hfits, -⟩ := assemble_eq_some_iff.1 hasm
    simp only [Statement.wellFormed, Bool.and_eq_true, fitsField_iff] at hfits
    obtain ⟨⟨hlayout, hw⟩, hh⟩ := hfits
    exact ⟨_, runSteps_assembled_writes [(.fbLayout, layout), (.fbW, w), (.fbH, h)] hasm rfl hhost hreset hidle
      (by simp) (by simp), toNat_setWidth_ofNat (by decide) hlayout, toNat_setWidth_ofNat (by decide) hw,
      toNat_setWidth_ofNat (by decide) hh, rfl⟩
  case setsrc =>
    intro base w h depth hasm
    obtain ⟨hfits, -⟩ := assemble_eq_some_iff.1 hasm
    simp only [Statement.wellFormed, Bool.and_eq_true, fitsField_iff] at hfits
    obtain ⟨⟨⟨hbase, hw⟩, hh⟩, hdepth⟩ := hfits
    exact ⟨_, runSteps_assembled_writes [(.srcBase, base), (.srcW, w), (.srcH, h), (.srcDepth, depth)] hasm rfl hhost
      hreset hidle (by simp) (by simp), Nat.mod_eq_of_lt hbase, toNat_setWidth_ofNat (by decide) hw,
      toNat_setWidth_ofNat (by decide) hh, toNat_setWidth_ofNat (by decide) hdepth, rfl⟩
  case setoff =>
    intro x y hasm
    obtain ⟨hfits, -⟩ := assemble_eq_some_iff.1 hasm
    simp only [Statement.wellFormed, Bool.and_eq_true, fitsOffset_iff] at hfits
    obtain ⟨hx, hy⟩ := hfits
    exact ⟨_, runSteps_assembled_writes [(.xoff, (x % 65536).toNat), (.yoff, (y % 65536).toNat)] hasm rfl hhost hreset
      hidle (by simp) (by simp), toInt_setWidth_ofNat_emod hx, toInt_setWidth_ofNat_emod hy, rfl⟩
  case setfg =>
    intro mono r g b hasm
    obtain ⟨hfits, -⟩ := assemble_eq_some_iff.1 hasm
    obtain ⟨hmono, hr, hg, hb⟩ := Colour.toNat_ofWord_colourValue hfits
    exact ⟨_, runSteps_assembled_writes [(.fg, colourValue mono r g b)] hasm rfl hhost hreset hidle (by simp)
      (by simp), hmono, hr, hg, hb, rfl⟩
  case setbg =>
    intro mono r g b hasm
    obtain ⟨hfits, -⟩ := assemble_eq_some_iff.1 hasm
    obtain ⟨hmono, hr, hg, hb⟩ := Colour.toNat_ofWord_colourValue hfits
    exact ⟨_, runSteps_assembled_writes [(.bg, colourValue mono r g b)] hasm rfl hhost hreset hidle (by simp)
      (by simp), hmono, hr, hg, hb, rfl⟩

/-! ### FILLBG -/

/-- A source of width 0 is unset everywhere (R134). -/
theorem State.sample_eq_none_of_srcW_zero {s : State} (h : s.reg.srcW = 0) (x y : Nat) : s.sample x y = none := by
  have hwidth : (s.srcWidth : Int) = 0 := by simp [State.srcWidth, h]
  have hcoord : s.sourceCoord x y = none := by
    refine if_neg ?_
    rintro ⟨hlo, hhi, -⟩
    omega
  simp only [State.sample, hcoord]

/-- A source of depth 1 with no rows, at address 0, passes the checks of every geometry that is accepted (R131 to
R133). -/
theorem State.compositeAccepted_of_empty_source {s : State} (hg : s.geometryAccepted) (hbase : s.reg.srcBase = 0)
    (hh : s.reg.srcH = 0) (hdepth : s.reg.srcDepth = 1) : s.compositeAccepted := by
  refine ⟨hg, ⟨.inl hdepth, ?_⟩, by simp [State.rangeAccepted, hbase, hh]⟩
  rw [hdepth]
  exact fun h => absurd h.2 (by decide)

/-- The state a compositing command whose checks pass leaves (R130). -/
def State.painted (s : State) (mode : BlendMode) : State := State.succeed { s with fbMem := Machine.paint s mode }

@[simp] theorem State.painted_fbMem (s : State) (mode : BlendMode) :
    (s.painted mode).fbMem = Machine.paint s mode := rfl
@[simp] theorem State.painted_pageAddr (s : State) (mode : BlendMode) (x y : Nat) :
    (s.painted mode).pageAddr x y = s.pageAddr x y := rfl
@[simp] theorem State.painted_nibbleAddr (s : State) (mode : BlendMode) (x y : Nat) :
    (s.painted mode).nibbleAddr x y = s.nibbleAddr x y := rfl

/-- A compositing command whose checks pass paints the framebuffer and succeeds (R130). -/
theorem composite_of_accepted {s : State} (mode : BlendMode) (h : s.compositeAccepted) :
    composite mode s = .next (s.painted mode) := by
  rcases composite_cases mode s with ⟨-, hpaint⟩ | ⟨hne, -⟩
  · exact hpaint
  · exact absurd (s.compositeCheck_iff_accepted.2 h) hne

/-- On the page layout Overwrite leaves BG.MONO where the source is unset (R136, R137). -/
theorem State.painted_overwrite_pagePixel {s : State} (hl : s.reg.fbLayout = 0) {x y : Nat} (hx : x < s.fbWidth)
    (hy : y < s.fbHeight) (hs : s.sample x y = none) : (s.painted .overwrite).pagePixel x y = s.reg.bg.mono := by
  have hpage : s.nibbleLayout = false := by simp [State.nibbleLayout, hl]
  rw [State.pagePixel_eq, State.painted_fbMem, State.painted_pageAddr, paint_page_pixel hpage .overwrite hx hy, hs]
  rfl

/-- On the nibble layout Overwrite leaves the channels of BG where the source is unset (R136, R138). -/
theorem State.painted_overwrite_channelByte {s : State} (hl : s.reg.fbLayout = 1) {x y ch : Nat} (hx : x < s.fbWidth)
    (hy : y < s.fbHeight) (hc : ch < 3) (hs : s.sample x y = none) :
    (s.painted .overwrite).channelByte x y ch = s.reg.bg.rgb.channelByte ch := by
  have hnibble : s.nibbleLayout = true := by simp [State.nibbleLayout, hl]
  rw [State.channelByte_eq, State.painted_fbMem, State.painted_nibbleAddr,
    paint_nibble_channel hnibble .overwrite hx hy hc]
  simp only [channelAfter, hs]
  rfl

/-- The register writes FILLBG begins with: SETSRC 0, 0, 0, 1 (R109). -/
def fillbgWrites : List (RegName × Nat) := [(.srcBase, 0), (.srcW, 0), (.srcH, 0), (.srcDepth, 1)]

/-- The state in which FILLBG's COMPW runs: the source is empty (R109). -/
def State.withEmptySource (s : State) (rest : List HostEvent) : State :=
  { s with host := rest, readData := none, reg := writeRegs s.reg fillbgWrites }

theorem State.withEmptySource_accepted {s : State} (rest : List HostEvent) (h : s.geometryAccepted) :
    (s.withEmptySource rest).compositeAccepted :=
  State.compositeAccepted_of_empty_source h rfl rfl rfl

theorem State.withEmptySource_sample (s : State) (rest : List HostEvent) (x y : Nat) :
    (s.withEmptySource rest).sample x y = none :=
  State.sample_eq_none_of_srcW_zero rfl x y

/-- The five accesses of FILLBG paint the framebuffer from an empty source (R109). -/
theorem runSteps_fillbg {s : State} {evs rest : List HostEvent} (hasm : assemble .fillbg = some evs)
    (h : s.host = evs ++ rest) (hr : s.inReset = false) (hp : s.phase = .idle) (hg : s.geometryAccepted) :
    runSteps 5 s = .next ((s.withEmptySource rest).painted .overwrite) := by
  obtain ⟨-, rfl⟩ := assemble_eq_some_iff.1 hasm
  have hwrites : runSteps 5 s = runSteps 1 (s.withEmptySource (cmdWrite (encode .compw) :: rest)) :=
    runSteps_regWrites (ws := fillbgWrites) 1 h hr hp (by decide) (by decide)
  have hstep : step (s.withEmptySource (cmdWrite (encode .compw) :: rest)) =
      runWord (encode .compw) (s.withEmptySource rest) := step_cmdWrite rfl hr hp
  have hcompw : runWord (encode .compw) (s.withEmptySource rest) = composite .overwrite (s.withEmptySource rest) :=
    runWord_command _ (decode_eq_command_iff.2 rfl)
  rw [composite_of_accepted _ (s.withEmptySource_accepted rest hg)] at hcompw
  rw [hwrites, runSteps_succ (hstep.trans hcompw)]
  rfl

/-- Settles O35: COMPW with the empty source writes BG at every pixel. -/
theorem fillbgPaintsTheBackground : Obligations.FillbgPaintsTheBackground := by
  intro s evs rest hasm hhost hreset hidle hgeom
  obtain ⟨haccepted, -⟩ := s.withEmptySource_accepted rest hgeom
  have hunset := s.withEmptySource_sample rest
  refine ⟨_, runSteps_fillbg hasm hhost hreset hidle hgeom, rfl, fun _ ha => ?_, fun hl x y hx hy => ?_,
    fun hl x y _ hx hy hc => ?_⟩
  · exact paint_read_outside ((State.geomOK_iff_accepted _).2 haccepted) .overwrite ((State.fbSize_eq _).trans_le ha)
  · exact State.painted_overwrite_pagePixel (s := s.withEmptySource rest) hl hx hy (hunset x y)
  · exact State.painted_overwrite_channelByte (s := s.withEmptySource rest) hl hx hy hc (hunset x y)

/-! ### PUSHSEQ -/

/-- The state with another host side: what the host will do, and the value it last got. No command reads either. -/
def State.withHostSide (s : State) (events : List HostEvent) (value : Option Word) : State :=
  { s with host := events, readData := value }

/-- A push does the same whatever stands on the host's side (R160). -/
theorem exec_push_withHostSide {s t : State} {cb : Bit} {d : Byte} (h : exec (.push cb d) s = .next t)
    (events : List HostEvent) (value : Option Word) :
    exec (.push cb d) (s.withHostSide events value) = .next (t.withHostSide events value) := by
  change endTransport (pushByte cb d s) = .next t at h
  change endTransport (pushByte cb d (s.withHostSide events value)) = _
  rcases pushByte_cases cb d s with ⟨hc, e⟩ | ⟨hc, ok, ha, e⟩ | ⟨hc, ha, e⟩ <;> rw [e] at h
  · cases h
    rw [pushByte_below cb d (s := s.withHostSide events value) hc]
    rfl
  · rw [pushByte_answered cb d ok (s := s.withHostSide events value) hc ha]
    cases ok <;> cases h <;> rfl
  · cases h
    rw [pushByte_silent cb d (s := s.withHostSide events value) hc ha]
    rfl

/-- A push leaves the reset line alone (R168). -/
theorem exec_push_inReset {s t : State} {cb : Bit} {d : Byte} (h : exec (.push cb d) s = .next t) :
    t.inReset = s.inReset := by
  have hpush := (pushByte_onlyTransported cb d s).inReset_eq
  rcases endTransport_cases (pushByte cb d s) with e | e | e <;>
  · cases e.symm.trans h
    exact hpush

/-- The CMD write of a PUSH (R34, R109). -/
def pushWrite (w : Bit × Byte) : HostEvent := cmdWrite (encode (.push w.1 w.2))

/-- The step of a PUSH write is the PUSH command (R34). -/
theorem step_pushWrite {s t : State} {w : Bit × Byte} (events : List HostEvent) (value : Option Word)
    (hr : s.inReset = false) (hp : s.phase = .idle) (h : exec (.push w.1 w.2) s = .next t) :
    step (s.withHostSide (pushWrite w :: events) value) = .next (t.withHostSide events none) := by
  have htaken : step (s.withHostSide (pushWrite w :: events) value) =
      runWord (encode (.push w.1 w.2)) (s.withHostSide events none) := step_cmdWrite rfl hr hp
  rw [htaken, runWord_command _ (decode_eq_command_iff.2 rfl)]
  exact exec_push_withHostSide h events none

/-- While a command waits, the steps at an access change nothing (R83, R236). -/
theorem runSteps_blocked {s : State} {a : Access} {rest : List HostEvent} (n : Nat) (h : s.host = .access a :: rest)
    (hr : s.inReset = false) (hp : s.phase ≠ .idle) : runSteps n s = .next s := by
  induction n with
  | zero => rfl
  | succ n ih =>
    have hstep : step s = .next s := by simp only [step, hostAction_access_blocked h hr hp]
    rw [runSteps_succ hstep, ih]

/-- The steps of a list of PUSH writes are the PUSH commands, up to one that waits: it leaves the writes after it
unserviced (R83, R160). -/
theorem runSteps_pushWrites (ws : List (Bit × Byte)) {s : State} (rest : List HostEvent) (value : Option Word)
    (hr : s.inReset = false) (hp : s.phase = .idle) :
    ∃ t left, runCommands (pushCommands ws) s = .next t ∧ left <:+ ws.map pushWrite ∧ (t.phase = .idle → left = []) ∧
      runSteps ws.length (s.withHostSide (ws.map pushWrite ++ rest) value) =
        .next (t.withHostSide (left ++ rest) (if ws.isEmpty then value else none)) := by
  induction ws generalizing s value with
  | nil => exact ⟨s, [], rfl, List.suffix_refl _, fun _ => rfl, rfl⟩
  | cons w ws ih =>
    obtain ⟨u, hu⟩ := exec_next (.push w.1 w.2) s
    have hur := (exec_push_inReset hu).trans hr
    rw [List.length_cons, List.map_cons, List.cons_append, runSteps_succ (step_pushWrite _ value hr hp hu)]
    by_cases hup : u.phase = .idle
    · obtain ⟨t, left, hrun, hleft, hidle, hsteps⟩ := ih none hur hup
      refine ⟨t, left, ?_, hleft.trans (List.suffix_cons _ _), hidle, ?_⟩
      · simpa [runCommands, pushCommands, hu, hup] using hrun
      · simpa using hsteps
    · refine ⟨u, ws.map pushWrite, ?_, List.suffix_cons _ _, fun h => absurd h hup, ?_⟩
      · simp [runCommands, pushCommands, hu, hup]
      · cases ws with
        | nil => rfl
        | cons v ws => exact runSteps_blocked _ rfl hur hup

/-- The host accesses of PUSHSEQ are the CMD writes of its pushes (R109). -/
theorem assemble_pushseq {cb : Nat} {ds : List Nat} {evs : List HostEvent} (h : assemble (.pushseq cb ds) = some evs) :
    cb < 2 ∧ (∀ d ∈ ds, d < 256) ∧
      evs = (ds.map fun d => (BitVec.ofNat 1 cb, BitVec.ofNat 8 d)).map pushWrite := by
  obtain ⟨hfits, rfl⟩ := assemble_eq_some_iff.1 h
  simp only [Statement.wellFormed, Bool.and_eq_true, List.all_eq_true, fitsField_iff] at hfits
  obtain ⟨hcb, hds⟩ := hfits
  refine ⟨hcb, hds, ?_⟩
  rw [expandStatement, List.filterMap_map, List.map_map]
  exact congrFun List.filterMap_eq_map ds

/-- Settles O55, by the list of PUSH writes from the state's own host side. -/
theorem pushseqIsItsPushes : Obligations.PushseqIsItsPushes := by
  intro s cb ds evs rest hasm hhost hreset hidle
  obtain ⟨hcb, hds, rfl⟩ := assemble_pushseq hasm
  obtain ⟨t, left, hrun, hleft, hdone, hsteps⟩ :=
    runSteps_pushWrites (ds.map fun d => (BitVec.ofNat 1 cb, BitVec.ofNat 8 d)) rest s.readData hreset hidle
  have hself : s.withHostSide s.host s.readData = s := rfl
  rw [← hhost, hself] at hsteps
  refine ⟨hcb, hds, by simp, t, left, ?_, hleft, hdone, ?_⟩
  · simpa [pushCommands, Function.comp_def] using hrun
  · simpa [State.withHostSide] using hsteps

end Sys2Proof.Machine

namespace Sys2Proof.Machine

/-! ### Refused checks -/

section
variable {s : State}

/-- `geomOK()` fails on a geometry that is refused (R131). -/
theorem State.geomOK_eq_false (h : ¬ s.geometryAccepted) : s.geomOK = false :=
  Bool.eq_false_iff.2 (mt s.geomOK_iff_accepted.1 h)

/-- `depthOK()` fails on a depth that is refused (R132). -/
theorem State.depthOK_eq_false (h : ¬ s.depthAccepted) : s.depthOK = false :=
  Bool.eq_false_iff.2 (mt s.depthOK_iff_accepted.1 h)

/-- The range check fails on a footprint that is refused (R133). -/
theorem State.srcInRange_eq_false (h : ¬ s.rangeAccepted) : s.srcInRange = false :=
  Bool.eq_false_iff.2 (mt s.srcInRange_iff_accepted.1 h)

theorem compositeCheck_eq_fbConfig (hg : ¬ s.geometryAccepted) : compositeCheck s = .fbConfig := by
  simp [compositeCheck, State.geomOK_eq_false hg]

theorem compositeCheck_eq_depthUnsupported (hg : s.geometryAccepted) (hd : ¬ s.depthAccepted) :
    compositeCheck s = .depthUnsupported := by
  simp [compositeCheck, s.geomOK_iff_accepted.2 hg, State.depthOK_eq_false hd]

theorem compositeCheck_eq_srcRange (hg : s.geometryAccepted) (hd : s.depthAccepted) (hr : ¬ s.rangeAccepted) :
    compositeCheck s = .srcRange := by
  simp [compositeCheck, s.geomOK_iff_accepted.2 hg, s.depthOK_iff_accepted.2 hd, State.srcInRange_eq_false hr]

/-- A compositing command with a failed check writes that check's code to STATUS and nothing else (R130, R139). -/
theorem composite_of_refused (mode : BlendMode) {e : ErrorCode} (hcheck : compositeCheck s = e) (hne : e ≠ .none) :
    composite mode s = .next (s.withStatus 0 e.code) := by
  subst hcheck
  rcases composite_cases mode s with ⟨hnone, -⟩ | ⟨-, hfail⟩
  · exact absurd hnone hne
  · rw [hfail, s.fail_eq_withStatus _ hne]

end

/-- The three compositing commands are the shared procedure under their blend modes (R140 to R142). -/
theorem exec_eq_composite {i : Instr} (hi : i = .compx ∨ i = .compw ∨ i = .compl) :
    ∃ mode, ∀ s, exec i s = composite mode s := by
  rcases hi with rfl | rfl | rfl
  · exact ⟨.exclusive, fun _ => rfl⟩
  · exact ⟨.overwrite, fun _ => rfl⟩
  · exact ⟨.overlay, fun _ => rfl⟩

/-- Settles O25: the serialisers make the geometry check before anything else. -/
theorem sendsRefuseABadGeometry : Obligations.SendsRefuseABadGeometry := by
  intro s cb hg
  have hbad := State.geomOK_eq_false hg
  have hsendr : exec .sendr s = .next (s.fail .fbConfig) := if_neg (by simp [hbad])
  have hsendf : exec (.sendf cb) s = .next (s.fail .fbConfig) := if_neg (by simp [hbad])
  rw [hsendr, hsendf, s.fail_eq_withStatus _ (by decide)]
  exact ⟨rfl, rfl⟩

/-- Settles O26, by the code of the first check that fails. -/
theorem compositeRefusalsInOrder : Obligations.CompositeRefusalsInOrder := by
  intro i s hi
  obtain ⟨mode, hexec⟩ := exec_eq_composite hi
  rw [hexec]
  exact ⟨fun hg => composite_of_refused mode (compositeCheck_eq_fbConfig hg) (by decide),
    fun hg hd => composite_of_refused mode (compositeCheck_eq_depthUnsupported hg hd) (by decide),
    fun hg hd hr => composite_of_refused mode (compositeCheck_eq_srcRange hg hd hr) (by decide)⟩

/-! ### The blend rules (R136) -/

section
variable {n : Nat} (set : Bool) (old col bg : BitVec n)

@[simp] theorem blend_exclusive_set : blend .exclusive true old col bg = old ^^^ col := rfl
@[simp] theorem blend_exclusive_unset : blend .exclusive false old col bg = old := rfl
@[simp] theorem blend_overwrite_set : blend .overwrite true old col bg = col := rfl
@[simp] theorem blend_overwrite_unset : blend .overwrite false old col bg = bg := rfl
@[simp] theorem blend_overlay_set : blend .overlay true old col bg = col := rfl
@[simp] theorem blend_overlay_unset : blend .overlay false old col bg = old := rfl

/-- A colour XORed in twice leaves what was there (R143 (c)). -/
theorem blend_exclusive_twice : blend .exclusive set (blend .exclusive set old col bg) col bg = old := by
  cases set with
  | false => rfl
  | true => rw [blend_exclusive_set, blend_exclusive_set, BitVec.xor_assoc, BitVec.xor_self, BitVec.xor_zero]

end

/-! ### What a painted pixel holds, and where painting stops -/

section
variable {s : State} (mode : BlendMode) {x y ch : Nat}

/-- Where the source is set, a channel is blended with the source's colour (R138). -/
theorem channelAfter_of_set {col : Rgb} (h : s.sample x y = some col) (old : Byte) :
    channelAfter s mode x y ch old = blend mode true old (col.channelByte ch) (s.reg.bg.rgb.channelByte ch) := by
  cases mode <;> simp [channelAfter, h, Rgb.channelByte]

/-- Where the source is unset, a channel is blended with no colour (R138). -/
theorem channelAfter_of_unset (h : s.sample x y = none) (old col : Byte) :
    channelAfter s mode x y ch old = blend mode false old col (s.reg.bg.rgb.channelByte ch) := by
  cases mode <;> simp [channelAfter, h, Rgb.channelByte]

/-- On the page layout a pixel holds the blend of its old value with FG.MONO and BG.MONO (R137). -/
theorem State.painted_pagePixel (hl : s.reg.fbLayout = 0) (hx : x < s.fbWidth) (hy : y < s.fbHeight) :
    (s.painted mode).pagePixel x y =
      blend mode (s.sample x y).isSome (s.pagePixel x y) s.reg.fg.mono s.reg.bg.mono := by
  have hpage : s.nibbleLayout = false := by simp [State.nibbleLayout, hl]
  rw [State.pagePixel_eq, State.pagePixel_eq, State.painted_fbMem, State.painted_pageAddr,
    paint_page_pixel hpage mode hx hy]

/-- On the nibble layout a channel byte holds what its own pass makes of its old value (R138). -/
theorem State.painted_channelByte (hl : s.reg.fbLayout = 1) (hx : x < s.fbWidth) (hy : y < s.fbHeight)
    (hc : ch < 3) : (s.painted mode).channelByte x y ch = channelAfter s mode x y ch (s.channelByte x y ch) := by
  have hnibble : s.nibbleLayout = true := by simp [State.nibbleLayout, hl]
  exact paint_nibble_channel hnibble mode hx hy hc

theorem State.painted_channelByte_of_set (hl : s.reg.fbLayout = 1) (hx : x < s.fbWidth) (hy : y < s.fbHeight)
    (hc : ch < 3) {col : Rgb} (h : s.sample x y = some col) :
    (s.painted mode).channelByte x y ch =
      blend mode true (s.channelByte x y ch) (col.channelByte ch) (s.reg.bg.rgb.channelByte ch) := by
  rw [State.painted_channelByte mode hl hx hy hc, channelAfter_of_set mode h]

theorem State.painted_channelByte_of_unset (hl : s.reg.fbLayout = 1) (hx : x < s.fbWidth) (hy : y < s.fbHeight)
    (hc : ch < 3) (h : s.sample x y = none) (col : Byte) :
    (s.painted mode).channelByte x y ch =
      blend mode false (s.channelByte x y ch) col (s.reg.bg.rgb.channelByte ch) := by
  rw [State.painted_channelByte mode hl hx hy hc, channelAfter_of_unset mode h]

/-- Painting touches no byte past the framebuffer (R72, R139). -/
theorem State.painted_read_outside (hg : s.geometryAccepted) {a : Nat} (ha : s.framebufferBytes ≤ a) :
    (s.painted mode).fbMem.read a = s.fbMem.read a :=
  paint_read_outside (s.geomOK_iff_accepted.2 hg) mode (s.fbSize_eq.trans_le ha)

/-- Painting changes nothing but the contents of the framebuffer (R139). -/
theorem State.paint_paintedFrom (hg : s.geometryAccepted) :
    State.paintedFrom { s with fbMem := paint s mode } s := by
  have hgeom := s.geomOK_iff_accepted.2 hg
  exact ⟨rfl, paint_size hgeom mode, paint_draw hgeom mode, fun _ ha => State.painted_read_outside mode hg ha⟩

/-- What a compositing command does once its checks pass, for all three modes at once: it succeeds, every pixel or
channel holds the mode's blend of what it held, and nothing else changes (R130, R136 to R139). -/
theorem composite_blends (hs : s.compositeAccepted) :
    ∃ t : State, composite mode s = .next (t.withStatus 1 0) ∧ t.paintedFrom s ∧
      (s.reg.fbLayout = 0 → ∀ x y, x < s.fbWidth → y < s.fbHeight →
        t.pagePixel x y = (s.sample x y).elim
          (blend mode false (s.pagePixel x y) s.reg.fg.mono s.reg.bg.mono)
          fun _ => blend mode true (s.pagePixel x y) s.reg.fg.mono s.reg.bg.mono) ∧
      (s.reg.fbLayout = 1 → ∀ x y ch, x < s.fbWidth → y < s.fbHeight → ch < 3 →
        t.channelByte x y ch = (s.sample x y).elim
          (blend mode false (s.channelByte x y ch) 0 (s.reg.bg.rgb.channelByte ch))
          fun col => blend mode true (s.channelByte x y ch) (col.channelByte ch) (s.reg.bg.rgb.channelByte ch)) := by
  refine ⟨_, composite_of_accepted mode hs, State.paint_paintedFrom mode hs.1, fun hl x y hx hy => ?_,
    fun hl x y ch hx hy hc => ?_⟩
  · refine (State.painted_pagePixel mode hl hx hy).trans ?_
    cases s.sample x y <;> rfl
  · cases h : s.sample x y with
    | some col => exact State.painted_channelByte_of_set mode hl hx hy hc h
    | none => exact State.painted_channelByte_of_unset mode hl hx hy hc h 0

end

/-- Settles O27: Exclusive XORs the colour into a set pixel and keeps an unset one, by definition of `blend`. -/
theorem compxBlendsEveryPixel : Obligations.CompxBlendsEveryPixel := by
  intro s hs
  obtain ⟨t, hexec, hfrom, hpage, hnibble⟩ := composite_blends .exclusive hs
  refine ⟨t, hexec, hfrom, fun hl x y hx hy => (hpage hl x y hx hy).trans ?_,
    fun hl x y ch hx hy hc => (hnibble hl x y ch hx hy hc).trans ?_⟩
  · cases s.sample x y <;> rfl
  · cases s.sample x y <;> rfl

/-- Settles O28: Overwrite takes the colour at a set pixel and the background at an unset one, by definition of
`blend`. -/
theorem compwRepaintsEveryPixel : Obligations.CompwRepaintsEveryPixel := by
  intro s hs
  obtain ⟨t, hexec, hfrom, hpage, hnibble⟩ := composite_blends .overwrite hs
  refine ⟨t, hexec, hfrom, fun hl x y hx hy => (hpage hl x y hx hy).trans ?_,
    fun hl x y ch hx hy hc => (hnibble hl x y ch hx hy hc).trans ?_⟩
  · cases s.sample x y <;> rfl
  · cases s.sample x y <;> rfl

/-- Settles O29: Overlay takes the colour at a set pixel and keeps an unset one, by definition of `blend`. -/
theorem complPaintsSetPixels : Obligations.ComplPaintsSetPixels := by
  intro s hs
  obtain ⟨t, hexec, hfrom, hpage, hnibble⟩ := composite_blends .overlay hs
  refine ⟨t, hexec, hfrom, fun hl x y hx hy => (hpage hl x y hx hy).trans ?_,
    fun hl x y ch hx hy hc => (hnibble hl x y ch hx hy hc).trans ?_⟩
  · cases s.sample x y <;> rfl
  · cases s.sample x y <;> rfl

/-- Settles O31, by what Overwrite leaves where the source is unset. -/
theorem overwriteOfAnUnsetSourceFillsBackground : Obligations.OverwriteOfAnUnsetSourceFillsBackground := by
  intro s hs hunset
  refine ⟨_, composite_of_accepted .overwrite hs, fun hl x y hx hy => ?_, fun hl x y hx hy => ?_⟩
  · exact State.painted_overwrite_pagePixel hl hx hy (hunset x y hx hy)
  · have hchannel : ∀ ch, ch < 3 → (s.painted .overwrite).channelByte x y ch = s.reg.bg.rgb.channelByte ch :=
      fun ch hc => State.painted_overwrite_channelByte hl hx hy hc (hunset x y hx hy)
    exact ⟨hchannel 0 (by decide), hchannel 1 (by decide), hchannel 2 (by decide)⟩

/-- Settles O34: the modes' blend rules agree pixel by pixel. -/
theorem blendModesAgreeWhereTheyShould : Obligations.BlendModesAgreeWhereTheyShould := by
  intro s hs
  refine ⟨_, _, _, composite_of_accepted .exclusive hs, composite_of_accepted .overwrite hs,
    composite_of_accepted .overlay hs, fun x y hx hy =>
      ⟨fun hl => ⟨fun hset => ?_, fun hunset => ?_⟩, fun hl ch hc => ⟨fun hset => ?_, fun hunset => ?_⟩⟩⟩
  · have hsome : (s.sample x y).isSome = true := Option.isSome_iff_ne_none.2 hset
    simp only [State.painted_pagePixel _ hl hx hy, hsome, blend_overlay_set, blend_overwrite_set]
  · simp [State.painted_pagePixel _ hl hx hy, hunset]
  · obtain ⟨col, hcol⟩ := Option.ne_none_iff_exists'.1 hset
    simp only [State.painted_channelByte_of_set _ hl hx hy hc hcol, blend_overlay_set, blend_overwrite_set]
  · simp only [State.painted_channelByte_of_unset _ hl hx hy hc hunset 0, blend_overlay_unset, blend_exclusive_unset,
      and_self]

/-! ### Every byte of the framebuffer is a byte of some pixel -/

/-- Every index below `W * n` is that of a column and a row. -/
theorem exists_pixel_index {W n a : Nat} (h : a < W * n) : ∃ x y, x < W ∧ y < n ∧ x + y * W = a := by
  have hW : 0 < W := Nat.pos_of_mul_pos_right (Nat.zero_lt_of_lt h)
  refine ⟨a % W, a / W, Nat.mod_lt a hW, Nat.div_lt_of_lt_mul h, ?_⟩
  rw [Nat.mul_comm, Nat.mod_add_div]

section
variable {s t : State} {a : Nat}

/-- Every bit of a framebuffer byte on the page layout is a pixel (R77, R79). -/
theorem State.exists_pagePixel (hg : s.geometryAccepted) (hl : s.reg.fbLayout = 0) (ha : a < s.framebufferBytes)
    {k : Nat} (hk : k < 8) : ∃ x y, x < s.fbWidth ∧ y < s.fbHeight ∧ x + y / 8 * s.fbWidth = a ∧ y % 8 = k := by
  obtain ⟨-, -, hlayout, -⟩ := hg
  have hpages : s.fbHeight % 8 = 0 := hlayout.resolve_left (by simp [hl])
  have hsize : s.framebufferBytes = s.fbWidth * (s.fbHeight / 8) := by
    rw [← Nat.mul_div_assoc _ (Nat.dvd_of_mod_eq_zero hpages)]
    simp [State.framebufferBytes, State.fbWidth, State.fbHeight, hl]
  obtain ⟨x, page, hx, hpage, haddr⟩ := exists_pixel_index (hsize ▸ ha)
  have hrow : (8 * page + k) / 8 = page := by omega
  exact ⟨x, 8 * page + k, hx, by omega, by rw [hrow, haddr], by omega⟩

/-- Every framebuffer byte on the nibble layout is a channel of a pixel (R78, R79). -/
theorem State.exists_channel (hl : s.reg.fbLayout = 1) (ha : a < s.framebufferBytes) :
    ∃ x y ch, x < s.fbWidth ∧ y < s.fbHeight ∧ ch < 3 ∧ (x + y * s.fbWidth) * 3 + ch = a := by
  have hsize : s.framebufferBytes = s.fbWidth * s.fbHeight * 3 := if_pos hl
  obtain ⟨x, y, hx, hy, hindex⟩ := exists_pixel_index (a := a / 3) (W := s.fbWidth) (n := s.fbHeight) (by omega)
  exact ⟨x, y, a % 3, hx, hy, by omega, by omega⟩

/-- Two framebuffers of one geometry that agree on every pixel and past the framebuffer agree on every byte. -/
theorem State.fbMem_read_eq_of_pixels (hg : s.geometryAccepted) (hW : t.reg.fbW = s.reg.fbW)
    (hout : ∀ a, s.framebufferBytes ≤ a → t.fbMem.read a = s.fbMem.read a)
    (hpage : s.reg.fbLayout = 0 → ∀ x y, x < s.fbWidth → y < s.fbHeight → t.pagePixel x y = s.pagePixel x y)
    (hnibble : s.reg.fbLayout = 1 → ∀ x y ch, x < s.fbWidth → y < s.fbHeight → ch < 3 →
      t.channelByte x y ch = s.channelByte x y ch) (a : Nat) : t.fbMem.read a = s.fbMem.read a := by
  by_cases ha : s.framebufferBytes ≤ a
  · exact hout a ha
  rw [Nat.not_le] at ha
  rcases s.reg.fbLayout_cases with hl | hl
  · refine BitVec.eq_of_getLsbD_eq fun k hk => ?_
    obtain ⟨x, y, hx, hy, rfl, rfl⟩ := State.exists_pagePixel hg hl ha hk
    have hpixel := hpage hl x y hx hy
    simp only [State.pagePixel, hW] at hpixel
    exact BitVec.ofBool_eq_iff_eq.1 hpixel
  · obtain ⟨x, y, ch, hx, hy, hc, rfl⟩ := State.exists_channel hl ha
    have hchannel := hnibble hl x y ch hx hy hc
    simp only [State.channelByte, hW] at hchannel
    exact hchannel

end

/-- Settles O32: Overlay leaves each pixel where the source is unset, and the pixels are the whole framebuffer. -/
theorem overlayOfAnUnsetSourceChangesNothing : Obligations.OverlayOfAnUnsetSourceChangesNothing := by
  intro s hs hunset
  have hg := hs.1
  refine ⟨_, composite_of_accepted .overlay hs, State.fbMem_read_eq_of_pixels hg rfl
    (fun a ha => State.painted_read_outside .overlay hg ha) (fun hl x y hx hy => ?_) fun hl x y ch hx hy hc => ?_⟩
  · simp [State.painted_pagePixel .overlay hl hx hy, hunset x y hx hy]
  · exact State.painted_channelByte_of_unset .overlay hl hx hy hc (hunset x y hx hy) 0

/-- Painting keeps what the checks of a compositing command read (R139). -/
theorem State.painted_accepted {s : State} (mode : BlendMode) (hs : s.compositeAccepted) :
    (s.painted mode).compositeAccepted := by
  obtain ⟨⟨hw, hh, hlayout, hfits⟩, hdepth, hrange⟩ := hs
  have hsize : (s.painted mode).fbMem.size = s.fbMem.size :=
    paint_size (s.geomOK_iff_accepted.2 ⟨hw, hh, hlayout, hfits⟩) mode
  exact ⟨⟨hw, hh, hlayout, hfits.trans_eq hsize.symm⟩, hdepth, hrange⟩

section
variable {s : State} {x y ch : Nat}

/-- At a page-layout pixel the second XOR undoes the first (R143 (c)). -/
theorem State.painted_exclusive_twice_pagePixel (hl : s.reg.fbLayout = 0) (hx : x < s.fbWidth) (hy : y < s.fbHeight) :
    ((s.painted .exclusive).painted .exclusive).pagePixel x y = s.pagePixel x y := by
  rw [State.painted_pagePixel (s := s.painted .exclusive) .exclusive hl hx hy,
    State.painted_pagePixel .exclusive hl hx hy]
  exact blend_exclusive_twice (s.sample x y).isSome _ _ _

/-- At a nibble-layout channel the second XOR undoes the first (R143 (c)). -/
theorem State.painted_exclusive_twice_channelByte (hl : s.reg.fbLayout = 1) (hx : x < s.fbWidth) (hy : y < s.fbHeight)
    (hc : ch < 3) : ((s.painted .exclusive).painted .exclusive).channelByte x y ch = s.channelByte x y ch := by
  have hsample : (s.painted .exclusive).sample x y = s.sample x y := rfl
  cases h : s.sample x y with
  | some col =>
    rw [State.painted_channelByte_of_set (s := s.painted .exclusive) .exclusive hl hx hy hc (hsample.trans h),
      State.painted_channelByte_of_set .exclusive hl hx hy hc h]
    exact blend_exclusive_twice true _ _ _
  | none =>
    rw [State.painted_channelByte_of_unset (s := s.painted .exclusive) .exclusive hl hx hy hc (hsample.trans h) 0,
      State.painted_channelByte_of_unset .exclusive hl hx hy hc h 0]
    exact blend_exclusive_twice false _ 0 _

end

/-- Settles O33: at each pixel the second XOR undoes the first, and the pixels are the whole framebuffer. -/
theorem exclusiveTwiceRestoresTheFramebuffer : Obligations.ExclusiveTwiceRestoresTheFramebuffer := by
  intro s hs
  have ht := State.painted_accepted .exclusive hs
  have hout : ∀ a, s.framebufferBytes ≤ a →
      ((s.painted .exclusive).painted .exclusive).fbMem.read a = s.fbMem.read a := fun a ha =>
    (State.painted_read_outside .exclusive ht.1 ha).trans (State.painted_read_outside .exclusive hs.1 ha)
  exact ⟨_, _, composite_of_accepted .exclusive hs, composite_of_accepted .exclusive ht,
    State.fbMem_read_eq_of_pixels hs.1 rfl hout
      (fun hl _ _ hx hy => State.painted_exclusive_twice_pagePixel hl hx hy)
      fun hl _ _ _ hx hy hc => State.painted_exclusive_twice_channelByte hl hx hy hc⟩

/-! ### The source -/

/-- `sext_16` is the two's complement value (R11). -/
theorem sext16_eq_toInt (v : BitVec 16) : sext16 v = v.toInt := by
  unfold sext16
  rw [BitVec.toInt_eq_toNat_cond]
  split <;> split <;> omega

/-- `quant4(b)`, as the nibble the compositor takes of it, is `b` divided by 16 (R135, R181). -/
theorem toNat_setWidth_quant4 (b : Byte) : ((quant4 b).setWidth 4).toNat = b.toNat / 16 := by
  have : b.toNat < 2 ^ 8 := b.isLt
  rw [quant4, BitVec.toNat_setWidth, BitVec.toNat_ushiftRight, Nat.shiftRight_eq_div_pow]
  omega

section
variable {s : State} {x y sx sy : Nat}

/-- Out of the source's bounds there is no source coordinate (R134). -/
theorem State.sourceCoord_eq_none
    (h : ¬ (0 ≤ (x : Int) - s.reg.xoff.toInt ∧ (x : Int) - s.reg.xoff.toInt < s.reg.srcW.toNat ∧
      0 ≤ (y : Int) - s.reg.yoff.toInt ∧ (y : Int) - s.reg.yoff.toInt < s.reg.srcH.toNat)) :
    s.sourceCoord x y = none := by
  simp only [State.sourceCoord, sext16_eq_toInt]
  exact if_neg h

/-- In bounds the source coordinate is the destination's less the offset (R134). -/
theorem State.sourceCoord_eq_some (hx : (x : Int) - s.reg.xoff.toInt = sx) (hy : (y : Int) - s.reg.yoff.toInt = sy)
    (hsx : sx < s.reg.srcW.toNat) (hsy : sy < s.reg.srcH.toNat) : s.sourceCoord x y = some (sx, sy) := by
  simp only [State.sourceCoord, sext16_eq_toInt, hx, hy]
  exact if_pos (by simp [State.srcWidth, State.srcHeight, hsx, hsy])

/-- A depth-1 source is set at a pixel exactly where its packed bit is 1 (R74, R134). -/
theorem State.sourceBit_of_depthOne (h : s.reg.srcDepth = 1) (sx sy : Nat) :
    s.sourceBit sx sy =
      (s.srcMem.read (s.reg.srcBase.toNat + sy * ((s.reg.srcW.toNat + 7) / 8) + sx / 8)).getLsbD (sx % 8) := by
  have haddr : s.srcBitAddr sx sy = s.reg.srcBase.toNat + sy * ((s.reg.srcW.toNat + 7) / 8) + sx / 8 := by
    simp [State.srcBitAddr, State.stride, State.depthOne, State.srcBase, State.srcWidth, ceilDiv, h]
  have hone : s.depthOne = true := decide_eq_true h
  simp only [State.sourceBit, hone, if_true, haddr, bitAt_eq_one_iff, Bool.decide_eq_true]

/-- A depth-32 pixel's red byte stands at four bytes a pixel along its row (R75). -/
theorem State.srcPixelAddr_of_depth32 (h : s.reg.srcDepth = 32) (sx sy : Nat) :
    s.srcPixelAddr sx sy = s.reg.srcBase.toNat + sy * (s.reg.srcW.toNat * 4) + sx * 4 := by
  simp [State.srcPixelAddr, State.stride, State.depthOne, State.srcBase, State.srcWidth, h]

theorem State.sample_of_sourceCoord (h : s.sourceCoord x y = some (sx, sy)) :
    s.sample x y = if s.sourceBit sx sy then some (s.sourceColour sx sy) else none := by
  rw [State.sample, h]

end

/-- Settles O30, by the source coordinate and the depth. -/
theorem sampleFollowsTheSource : Obligations.SampleFollowsTheSource := by
  intro s x y
  refine ⟨fun hout => ?_, fun sx sy hx hy hsx hsy => ⟨fun hone => ?_, fun h32 => ?_⟩⟩
  · rw [State.sample, State.sourceCoord_eq_none hout]
  · have hcolour : s.sourceColour sx sy = ⟨s.reg.fg.r, s.reg.fg.g, s.reg.fg.b⟩ := by
      simp [State.sourceColour, State.depthOne, hone, Colour.rgb]
    rw [State.sample_of_sourceCoord (State.sourceCoord_eq_some hx hy hsx hsy), State.sourceBit_of_depthOne hone,
      hcolour]
  · have hdepth : s.depthOne = false := by simp [State.depthOne, h32]
    have hset : s.sourceBit sx sy = true := by simp [State.sourceBit, hdepth]
    refine ⟨s.sourceColour sx sy, ?_, ?_⟩
    · rw [State.sample_of_sourceCoord (State.sourceCoord_eq_some hx hy hsx hsy), if_pos hset]
    · rw [← State.srcPixelAddr_of_depth32 h32]
      simp only [State.sourceColour, hdepth, Bool.false_eq_true, if_false]
      exact ⟨toNat_setWidth_quant4 _, toNat_setWidth_quant4 _, toNat_setWidth_quant4 _⟩

end Sys2Proof.Machine

namespace Sys2Proof.Machine

/-! ### The framer's two pushes

A push below cursor 7 stores a byte and moves on (`Framer.push`); the one at cursor 7 completes the frame
(`Framer.full`). A run of pushes and a FLUSH both come to the first kind repeated and then the second kind once. -/

/-- The framer after a push below cursor 7 (R160). -/
def Framer.push (f : Framer) (cb : Bit) (d : Byte) : Framer := { f.store cb d with cursor := f.cursor + 1 }

/-- The framer after a list of words pushed below cursor 7. -/
def Framer.pushes (f : Framer) : List (Bit × Byte) → Framer
  | [] => f
  | w :: ws => (f.push w.1 w.2).pushes ws

section
variable (f : Framer) (cb : Bit) (d : Byte)

theorem Framer.push_cursor_toNat (h : f.cursor.toNat < 7) : (f.push cb d).cursor.toNat = f.cursor.toNat + 1 := by
  change (f.cursor + 1).toNat = _
  bv_omega

/-- The byte at the cursor is the packed one (R160). -/
theorem Framer.store_frame_same :
    (f.store cb d).frame[f.cursor.toNat]? = some (framerByte f.cursor.toNat f.prev d cb) := by
  have := f.cursor.isLt
  rw [Framer.store_frame, Vector.getElem?_setIfInBounds_self, if_pos (by omega)]

theorem Framer.store_frame_other {k : Nat} (h : k ≠ f.cursor.toNat) : (f.store cb d).frame[k]? = f.frame[k]? := by
  rw [Framer.store_frame, Vector.getElem?_setIfInBounds_ne (Ne.symm h)]

/-- Position 8 of a completed frame is the last data byte, unmodified (R160). -/
theorem Framer.full_frame_eight : (f.full cb d).frame[8]? = some d := by
  rw [Framer.full, Framer.storeLast_frame, Vector.getElem?_setIfInBounds_self, if_pos (by omega)]

theorem Framer.full_frame_of_ne_eight {k : Nat} (h : k ≠ 8) : (f.full cb d).frame[k]? = (f.store cb d).frame[k]? := by
  rw [Framer.full, Framer.storeLast_frame, Vector.getElem?_setIfInBounds_ne (Ne.symm h)]

end

/-- Pushed words join those the framer holds, while there is room below cursor 7 (R160). -/
theorem Framer.holds_pushes {f : Framer} {ws : List (Bit × Byte)} (h : f.holds ws) (vs : List (Bit × Byte))
    (hroom : ws.length + vs.length ≤ 7) : (f.pushes vs).holds (ws ++ vs) := by
  induction vs generalizing f ws with
  | nil => rwa [List.append_nil]
  | cons v vs ih =>
    rw [List.length_cons] at hroom
    have hnext : (f.push v.1 v.2).holds (ws ++ [v]) := Framer.holds_push h (by omega) v.1 v.2
    simpa [Framer.pushes] using ih hnext (by rw [List.length_append, List.length_singleton]; omega)

theorem Framer.pushes_cursor_toNat (f : Framer) (ws : List (Bit × Byte)) (hroom : f.cursor.toNat + ws.length ≤ 7) :
    (f.pushes ws).cursor.toNat = f.cursor.toNat + ws.length := by
  induction ws generalizing f with
  | nil => rfl
  | cons w ws ih =>
    rw [List.length_cons] at hroom ⊢
    have hnext := f.push_cursor_toNat w.1 w.2 (by omega)
    rw [Framer.pushes, ih _ (by omega), hnext]
    omega

/-! ### The stored byte as a number -/

theorem toNat_controlBit (cb : Bit) {k : Nat} (hk : k < 8) :
    ((cb.setWidth 8 : Byte) <<< k).toNat = cb.toNat <<< k := by
  have hcb : cb.toNat < 2 := cb.isLt
  have hpow : 2 ^ k ≤ 2 ^ 7 := Nat.pow_le_pow_right (by omega) (by omega)
  have hlt : cb.toNat * 2 ^ k < 2 ^ 8 := by nlinarith
  rw [BitVec.toNat_shiftLeft, BitVec.toNat_setWidth, Nat.mod_eq_of_lt (show cb.toNat < 2 ^ 8 by omega),
    Nat.shiftLeft_eq, Nat.mod_eq_of_lt hlt]

/-- The packed byte in plain arithmetic (R160, R164). -/
theorem toNat_framerByte {c : Nat} (hc : c < 8) (prev d : Byte) (cb : Bit) :
    (framerByte c prev d cb).toNat =
      (d.toNat >>> (c + 1)) ||| (if 0 < c then (prev.toNat <<< (8 - c)) % 256 else 0) ||| (cb.toNat <<< (7 - c)) := by
  rcases Nat.eq_zero_or_pos c with rfl | hpos
  · rw [framerByte_zero_eq_closed, BitVec.toNat_or, toNat_controlBit cb (by omega), BitVec.toNat_ushiftRight]
    simp [Nat.or_comm]
  · rw [framerByte_eq_closed c prev d cb hc hpos, if_pos hpos, BitVec.toNat_or, BitVec.toNat_or,
      toNat_controlBit cb (by omega), BitVec.toNat_ushiftRight, BitVec.toNat_shiftLeft]
    ac_rfl

/-! ### The framer commands, case by case -/

/-- The state after a command that sent a frame and got its answer: the frame logged, the framer restarted, the answer
reported (R160, R169). -/
def State.frameSent (s : State) (f : Framer) (ok : Bool) : State :=
  State.withStatus
    { s with
      fr := f.restart
      log := s.log ++ [⟨f.frame.toList, ok⟩]
      answers := s.answers.tail
      asked := s.asked + 1 }
    (if ok then 1 else 0) (if ok then 0 else 5)

section
variable {s : State} {cb : Bit} {d noop : Byte} {ok : Bool}

/-- A transmitting part that is answered ends its command with that answer (R202). -/
theorem endTransport_done (ok : Bool) (t : State) :
    endTransport (.done ok t) = .next (t.withStatus (if ok then 1 else 0) (if ok then 0 else 5)) := by
  cases ok <;> rfl

/-- Below cursor 7 a PUSH moves the framer on and succeeds (R160). -/
theorem exec_push_below (h : s.fr.cursor ≠ 7) :
    exec (.push cb d) s = .next (State.withStatus { s with fr := s.fr.push cb d } 1 0) := by
  change endTransport (pushByte cb d s) = _
  rw [pushByte_below cb d h]
  rfl

/-- At cursor 7 an answered PUSH sends the frame (R160, R162). -/
theorem exec_push_answered (h : s.fr.cursor = 7) (ha : s.answerAt 0 = if ok then .success else .failure) :
    exec (.push cb d) s = .next (s.frameSent (s.fr.full cb d) ok) := by
  change endTransport (pushByte cb d s) = _
  rw [pushByte_answered cb d ok h ha, endTransport_done]
  rfl

/-- With the cursor at 0 the loop of FLUSH makes no push, whatever fuel is left (R166). -/
theorem flushLoop_cursor_zero (fuel : Nat) (h : s.fr.cursor = 0) : flushLoop fuel ok cb noop s = .done ok s := by
  cases fuel with
  | zero => rfl
  | succ n => exact if_pos h

/-- Away from cursor 0 the loop of FLUSH goes on from where its push is done (R165). -/
theorem flushLoop_of_push {fuel : Nat} {ok' : Bool} {t : State} (h : s.fr.cursor ≠ 0)
    (hpush : pushByte cb noop s = .done ok' t) :
    flushLoop (fuel + 1) ok cb noop s = flushLoop fuel ok' cb noop t := by
  rw [flushLoop, if_neg h, hpush]

/-- With `n` pushes to go to cursor 7, an answered FLUSH makes them and then the one that sends the frame, and reports
that one's answer (R165, R167). -/
theorem flushLoop_answered {n fuel : Nat} (first : Bool) (hn : s.fr.cursor.toNat + n = 7) (hfuel : n < fuel)
    (h0 : s.fr.cursor ≠ 0) (ha : s.answerAt 0 = if ok then .success else .failure) :
    endTransport (flushLoop fuel first cb noop s) =
      .next (s.frameSent ((s.fr.pushes (List.replicate n (cb, noop))).full cb noop) ok) := by
  induction n generalizing s fuel first with
  | zero =>
    obtain ⟨fuel, rfl⟩ : ∃ m, fuel = m + 1 := ⟨fuel - 1, by omega⟩
    have h7 : s.fr.cursor = 7 := BitVec.eq_of_toNat_eq hn
    rw [flushLoop_of_push h0 (pushByte_answered cb noop ok h7 ha), flushLoop_cursor_zero fuel rfl, endTransport_done]
    rfl
  | succ n ih =>
    obtain ⟨fuel, rfl⟩ : ∃ m, fuel = m + 1 := ⟨fuel - 1, by omega⟩
    have h7 : s.fr.cursor ≠ 7 := fun h => by simp [h] at hn
    have hnext := s.fr.push_cursor_toNat cb noop (by omega)
    have hne : (s.fr.push cb noop).cursor ≠ 0 := fun h => by simp [h] at hnext
    rw [flushLoop_of_push h0 (pushByte_below cb noop h7)]
    have hleft : (s.fr.push cb noop).cursor.toNat + n = 7 := by omega
    exact ih (s := { s with fr := s.fr.push cb noop }) true hleft (by omega) hne ha

/-- From cursor 1..7 an answered FLUSH sends the frame its padding words complete (R165). -/
theorem exec_flush_answered (h0 : s.fr.cursor ≠ 0) (ha : s.answerAt 0 = if ok then .success else .failure) :
    exec (.flush cb noop) s =
      .next (s.frameSent ((s.fr.pushes (List.replicate (7 - s.fr.cursor.toNat) (cb, noop))).full cb noop) ok) := by
  have := s.fr.cursor.isLt
  exact flushLoop_answered true (by omega) (by omega) h0 ha

end

/-- Settles O13, by the framer `Framer.push` leaves. -/
theorem pushBelowSevenStoresOneByte : Obligations.PushBelowSevenStoresOneByte := by
  intro s cb d h7
  have hne : s.fr.cursor.toNat ≠ 7 := fun e => h7 (BitVec.eq_of_toNat_eq e)
  have hlt := s.fr.cursor.isLt
  exact ⟨s.fr.push cb d, exec_push_below h7, s.fr.push_cursor_toNat cb d (by omega), rfl,
    fun k hk => s.fr.store_frame_other cb d hk, _, s.fr.store_frame_same cb d, toNat_framerByte hlt _ _ _⟩

/-- Settles O14: the completed frame differs from the stored one at positions 7 and 8 only. -/
theorem pushAtSevenTransmitsTheFrame : Obligations.PushAtSevenTransmitsTheFrame := by
  intro s cb d ok h7 ha
  have hcur : s.fr.cursor.toNat = 7 := congrArg BitVec.toNat h7
  refine ⟨(s.fr.full cb d).frame, exec_push_answered h7 ha, fun k hk => ?_, ⟨framerByte 7 s.fr.prev d cb, ?_, ?_⟩,
    s.fr.full_frame_eight cb d⟩
  · rw [s.fr.full_frame_of_ne_eight cb d (by omega), s.fr.store_frame_other cb d (by omega)]
  · rw [s.fr.full_frame_of_ne_eight cb d (by omega), ← hcur, s.fr.store_frame_same cb d]
  · have hd : d.toNat >>> 8 = 0 := Nat.shiftRight_eq_zero _ _ d.isLt
    rw [toNat_framerByte (by omega), hd, if_pos (by omega), Nat.shiftLeft_eq]
    simp

/-- Settles O15: the loop of FLUSH tests the cursor first. -/
theorem flushAtCursorZeroDoesNothing : Obligations.FlushAtCursorZeroDoesNothing := by
  intro s cb noop h
  change endTransport (flushLoop 8 true cb noop s) = _
  rw [flushLoop_cursor_zero 8 h, endTransport_done]
  rfl

/-! ### The frame a FLUSH completes -/

/-- `v` is the frame of `f` completed by padding words: the bytes below the cursor kept, the others packed from the
padding word (R165). -/
def Framer.pads (f : Framer) (cb : Bit) (noop : Byte) (v : Vector Byte 9) : Prop :=
  (∀ k : Nat, k < f.cursor.toNat → v[k]? = f.frame[k]?) ∧
  v[f.cursor.toNat]? = some (framerByte f.cursor.toNat f.prev noop cb) ∧
  (∀ k : Nat, f.cursor.toNat < k → k < 8 → v[k]? = some (framerByte k noop noop cb)) ∧
  v[8]? = some noop

section
variable {f : Framer} {cb : Bit} {noop : Byte}

theorem Framer.pads_full (h7 : f.cursor.toNat = 7) : f.pads cb noop (f.full cb noop).frame := by
  refine ⟨fun k hk => ?_, ?_, fun k hk hk8 => by omega, f.full_frame_eight cb noop⟩
  · rw [f.full_frame_of_ne_eight cb noop (by omega), f.store_frame_other cb noop (by omega)]
  · rw [f.full_frame_of_ne_eight cb noop (by omega), f.store_frame_same cb noop]

/-- A frame padded from where the first padding word left the framer is padded from before it. -/
theorem Framer.pads_of_push {v : Vector Byte 9} (h7 : f.cursor.toNat < 7) (h : (f.push cb noop).pads cb noop v) :
    f.pads cb noop v := by
  obtain ⟨hbelow, hat, habove, height⟩ := h
  rw [f.push_cursor_toNat cb noop h7] at hbelow hat habove
  refine ⟨fun k hk => ?_, ?_, fun k hk hk8 => ?_, height⟩
  · exact (hbelow k (by omega)).trans (f.store_frame_other cb noop (by omega))
  · exact (hbelow _ (by omega)).trans (f.store_frame_same cb noop)
  · rcases Nat.lt_or_ge (f.cursor.toNat + 1) k with hlt | hge
    · exact habove k hlt hk8
    · obtain rfl : k = f.cursor.toNat + 1 := by omega
      exact hat

theorem Framer.pads_pushes {n : Nat} (hn : f.cursor.toNat + n = 7) :
    f.pads cb noop ((f.pushes (List.replicate n (cb, noop))).full cb noop).frame := by
  induction n generalizing f with
  | zero => exact Framer.pads_full hn
  | succ n ih =>
    have hnext := f.push_cursor_toNat cb noop (by omega)
    exact Framer.pads_of_push (by omega) (ih (by omega))

end

/-- Settles O16: the padding pushes complete the frame that the last of them sends. -/
theorem flushPadsAndSendsTheFrame : Obligations.FlushPadsAndSendsTheFrame := by
  intro s cb noop ok h0 ha
  have := s.fr.cursor.isLt
  exact ⟨_, exec_flush_answered h0 ha, Framer.pads_pushes (by omega)⟩

/-! ### Runs of PUSH commands -/

section
variable {s t : State}

theorem runCommands_singleton (i : Instr) (s : State) : runCommands [i] s = exec i s := by
  rw [runCommands]
  cases exec i s with
  | next t => exact ite_id _
  | fault r => rfl
  | refused r => rfl

theorem pushCommands_append (ws vs : List (Bit × Byte)) :
    pushCommands (ws ++ vs) = pushCommands ws ++ pushCommands vs := List.map_append

/-- Commands after those that ended run from the state they left (R83). -/
theorem runCommands_append {is js : List Instr} (h : runCommands is s = .next t) (ht : t.phase = .idle) :
    runCommands (is ++ js) s = runCommands js t := by
  induction is generalizing s with
  | nil =>
    cases h
    rfl
  | cons i is ih =>
    rw [runCommands] at h
    rw [List.cons_append, runCommands]
    cases he : exec i s with
    | next u =>
      simp only [he] at h ⊢
      by_cases hu : u.phase = .idle
      · rw [if_pos hu] at h ⊢
        exact ih h
      · rw [if_neg hu] at h
        cases h
        exact absurd ht hu
    | fault r => simp [he] at h
    | refused r => simp [he] at h

/-- Words pushed below cursor 7 move the framer on, and at most STATUS changes besides (R160). -/
theorem runCommands_pushes (ws : List (Bit × Byte)) (hroom : s.fr.cursor.toNat + ws.length ≤ 7)
    (hp : s.phase = .idle) :
    ∃ ok err, runCommands (pushCommands ws) s =
      .next (State.withStatus { s with fr := s.fr.pushes ws } ok err) := by
  induction ws generalizing s with
  | nil => exact ⟨s.reg.lastOk, s.reg.lastErr, rfl⟩
  | cons w ws ih =>
    rw [List.length_cons] at hroom
    have h7 : s.fr.cursor ≠ 7 := fun h => by simp [h] at hroom
    have hnext := s.fr.push_cursor_toNat w.1 w.2 (by omega)
    have hleft : (s.fr.push w.1 w.2).cursor.toNat + ws.length ≤ 7 := by omega
    obtain ⟨ok, err, hrun⟩ := ih (s := State.withStatus { s with fr := s.fr.push w.1 w.2 } 1 0) hleft hp
    have hfirst : runCommands [.push w.1 w.2] s = .next (State.withStatus { s with fr := s.fr.push w.1 w.2 } 1 0) := by
      rw [runCommands_singleton, exec_push_below h7]
    exact ⟨ok, err, (runCommands_append hfirst hp).trans hrun⟩

/-- Words pushed up to cursor 7, and one more that is answered, send one frame (R160, R162). -/
theorem runCommands_pushes_answered {ws : List (Bit × Byte)} {w : Bit × Byte} {ok : Bool}
    (hfull : s.fr.cursor.toNat + ws.length = 7) (hp : s.phase = .idle)
    (ha : s.answerAt 0 = if ok then .success else .failure) :
    runCommands (pushCommands (ws ++ [w])) s = .next (s.frameSent ((s.fr.pushes ws).full w.1 w.2) ok) := by
  obtain ⟨ok₀, err₀, hrun⟩ := runCommands_pushes ws hfull.le hp
  have h7 : (s.fr.pushes ws).cursor = 7 :=
    BitVec.eq_of_toNat_eq ((s.fr.pushes_cursor_toNat ws hfull.le).trans hfull)
  rw [pushCommands_append, runCommands_append hrun hp]
  exact (runCommands_singleton _ _).trans
    (exec_push_answered (s := State.withStatus { s with fr := s.fr.pushes ws } ok₀ err₀) h7 ha)

/-- From cursor 1..7 a FLUSH that is answered is the PUSH commands of its padding word (R165). -/
theorem exec_flush_eq_pushes {cb : Bit} {noop : Byte} (h0 : s.fr.cursor ≠ 0) (hp : s.phase = .idle)
    (ha : s.answerAt 0 ≠ .silence) :
    exec (.flush cb noop) s = runCommands (pushCommands (List.replicate (8 - s.fr.cursor.toNat) (cb, noop))) s := by
  have hlt := s.fr.cursor.isLt
  obtain ⟨ok, hok⟩ : ∃ ok : Bool, s.answerAt 0 = if ok then .success else .failure := by
    cases hans : s.answerAt 0 with
    | success => exact ⟨true, rfl⟩
    | failure => exact ⟨false, rfl⟩
    | silence => exact absurd hans ha
  rw [show 8 - s.fr.cursor.toNat = (7 - s.fr.cursor.toNat) + 1 by omega, List.replicate_succ',
    runCommands_pushes_answered (by rw [List.length_replicate]; omega) hp hok, exec_flush_answered h0 hok]

end

/-- Settles O17: both sides send the frame the same pushes complete. -/
theorem flushIsThePaddingPushes : Obligations.FlushIsThePaddingPushes := by
  intro s cb noop h0 hp ha
  rw [exec_flush_eq_pushes h0 hp ha, pushCommands, List.map_replicate]

/-- From cursor 0, eight words pushed send the frame of R161 (R170). -/
theorem runCommands_eight_pushes {s : State} {ws : List (Bit × Byte)} {ok : Bool} (h0 : s.fr.cursor = 0)
    (hp : s.phase = .idle) (ha : s.answerAt 0 = if ok then .success else .failure) (h8 : ws.length = 8) :
    ∃ f : Framer, runCommands (pushCommands ws) s = .next (s.frameSent f ok) ∧ f.frame.toList = packWords ws := by
  obtain ⟨vs, w, rfl⟩ : ∃ vs w, ws = vs ++ [w] :=
    ⟨ws.dropLast, ws.getLast (List.ne_nil_of_length_eq_add_one h8), (List.dropLast_append_getLast _).symm⟩
  have h7 : vs.length = 7 := by simpa using h8
  have hcur : s.fr.cursor.toNat = 0 := congrArg BitVec.toNat h0
  have hholds : (s.fr.pushes vs).holds vs := Framer.holds_pushes (Framer.holds_nil h0) vs (by simp [h7])
  exact ⟨_, runCommands_pushes_answered (by omega) hp ha, Framer.full_of_holds hholds h7 w.1 w.2⟩

/-- From cursor 0, one to seven words pushed and a FLUSH are eight words pushed (R165, R170). -/
theorem runCommands_pushes_flush {s : State} {ws : List (Bit × Byte)} {cb : Bit} {noop : Byte} (h0 : s.fr.cursor = 0)
    (hp : s.phase = .idle) (ha : s.answerAt 0 ≠ .silence) (h1 : 1 ≤ ws.length) (h7 : ws.length ≤ 7) :
    runCommands (pushCommands ws ++ [.flush cb noop]) s =
      runCommands (pushCommands (ws ++ List.replicate (8 - ws.length) (cb, noop))) s := by
  have hcur : s.fr.cursor.toNat = 0 := congrArg BitVec.toNat h0
  have hroom : s.fr.cursor.toNat + ws.length ≤ 7 := by omega
  obtain ⟨ok₀, err₀, hrun⟩ := runCommands_pushes ws hroom hp
  have hlen : (s.fr.pushes ws).cursor.toNat = ws.length := by rw [s.fr.pushes_cursor_toNat ws hroom]; omega
  have hne : (s.fr.pushes ws).cursor ≠ 0 := fun h => by simp [h] at hlen; omega
  rw [runCommands_append hrun hp, runCommands_singleton, pushCommands_append, runCommands_append hrun hp, ← hlen]
  exact exec_flush_eq_pushes hne hp ha

/-- Settles O18: a flushed frame is the frame of its words and the padding words. -/
theorem eightWordsMakeOneFrame : Obligations.EightWordsMakeOneFrame := by
  intro s ws ok h0 hp ha
  have hsent : ∀ vs : List (Bit × Byte), vs.length = 8 → ∃ t, runCommands (pushCommands vs) s = .next t ∧
      t.log = s.log ++ [⟨packWords vs, ok⟩] ∧ t.asked = s.asked + 1 ∧ t.fr.cursor = 0 ∧ t.fr.prev = 0 := by
    intro vs h8
    obtain ⟨f, hrun, hframe⟩ := runCommands_eight_pushes h0 hp ha h8
    exact ⟨_, hrun, hframe ▸ rfl, rfl, rfl, rfl⟩
  refine ⟨hsent ws, fun cb noop h1 h7 => ?_⟩
  have hns : s.answerAt 0 ≠ .silence := by rw [ha]; cases ok <;> decide
  rw [runCommands_pushes_flush h0 hp hns h1 h7]
  exact hsent _ (by rw [List.length_append, List.length_replicate]; omega)

/-! ### The bit stream of a frame -/

theorem packedByte_eq_framerByte (ws : List (Bit × Byte)) {c : Nat} (hc : c < 8) :
    packedByte ws c = framerByte c (wordAt ws (c - 1)).2 (wordAt ws c).2 (wordAt ws c).1 := by
  rcases Nat.eq_zero_or_pos c with rfl | hpos
  · rw [framerByte_zero_eq_closed, packedByte, if_pos rfl]
  · rw [framerByte_eq_closed c _ _ _ hc hpos, packedByte, if_neg (by omega), if_pos hc]

theorem packedByte_eight (ws : List (Bit × Byte)) : packedByte ws 8 = (wordAt ws 7).2 := rfl

theorem getLsbD_nineBits (w : Bit × Byte) (i : Nat) :
    (nineBits w).getLsbD i = if i < 8 then w.2.getLsbD i else w.1.getLsbD (i - 8) := by
  rw [nineBits, BitVec.getLsbD_append]

/-- Bit `k` of the frame, from the most significant end, is bit `k` of its words in order (R163). -/
theorem getLsbD_packedByte (ws : List (Bit × Byte)) {k : Nat} (hk : k < 72) :
    (packedByte ws (k / 8)).getLsbD (7 - k % 8) = (nineBits (wordAt ws (k / 9))).getLsbD (8 - k % 9) := by
  rw [getLsbD_nineBits]
  rcases Nat.lt_or_ge (k / 8) 8 with hc | hc
  · rw [packedByte_eq_framerByte ws hc, getLsbD_framerByte _ _ _ _ _ hc (by omega)]
    rcases Nat.lt_trichotomy (k % 8) (k / 8) with h | h | h
    · rw [if_neg (by omega), if_neg (by omega), if_pos (by omega), show k / 9 = k / 8 - 1 by omega,
        show 8 - k % 9 = 7 - k % 8 - (8 - k / 8) by omega]
    · rw [if_pos (by omega), if_neg (by omega), show k / 9 = k / 8 by omega, show 8 - k % 9 - 8 = 0 by omega]
    · rw [if_neg (by omega), if_pos (by omega), if_pos (by omega), show k / 9 = k / 8 by omega,
        show 8 - k % 9 = 7 - k % 8 + k / 8 + 1 by omega]
  · have h9 : k / 9 = 7 := by omega
    rw [show k / 8 = 8 by omega, packedByte_eight, h9, if_pos (by omega), show 8 - k % 9 = 7 - k % 8 by omega]

/-- Settles O19: the frame sent is the closed form of R161, whose bits are the words' bits. -/
theorem frameIsTheBitStreamOfItsWords : Obligations.FrameIsTheBitStreamOfItsWords := by
  intro s t ws ok h0 hp ha h8 hrun
  obtain ⟨f, hsent, hframe⟩ := runCommands_eight_pushes h0 hp ha h8
  cases hrun.symm.trans hsent
  refine ⟨packWords ws, hframe ▸ rfl, by simp [packWords], fun k hk => ?_⟩
  have hbyte : (packWords ws).getD (k / 8) 0 = packedByte ws (k / 8) := by
    simp [packWords, List.getD_eq_getElem?_getD, show k / 8 < 9 by omega]
  rw [hbyte, getLsbD_packedByte ws hk]

/-! ### Commands that leave the framer alone -/

/-- The command leaves the framer it finds, and under any other framer comes to the same but for that framer (R168). -/
def FramerBlind (run : State → Host.Outcome State Fault Refusal) : Prop :=
  ∀ (s : State) (f : Framer),
    ∃ t, run s = .next t ∧ t.fr = s.fr ∧ run { s with fr := f } = .next { t with fr := f }

theorem endTransport_transmit_framerBlind (bytes : List Byte) :
    FramerBlind fun s => endTransport (transmit s bytes) := by
  intro s f
  dsimp only
  have hans : ({ s with fr := f } : State).answerAt 0 = s.answerAt 0 := rfl
  cases ha : s.answerAt 0 with
  | success =>
    rw [transmit_success bytes ha, transmit_success bytes (hans.trans ha)]
    exact ⟨_, rfl, rfl, rfl⟩
  | failure =>
    rw [transmit_failure bytes ha, transmit_failure bytes (hans.trans ha)]
    exact ⟨_, rfl, rfl, rfl⟩
  | silence =>
    rw [transmit_silence bytes ha, transmit_silence bytes (hans.trans ha)]
    exact ⟨_, rfl, rfl, rfl⟩

theorem composite_framerBlind (mode : BlendMode) : FramerBlind (composite mode) := by
  intro s f
  have hcheck : compositeCheck { s with fr := f } = compositeCheck s := rfl
  by_cases hc : compositeCheck s = .none
  · exact ⟨_, composite_of_accepted mode (s.compositeCheck_iff_accepted.1 hc), rfl,
      composite_of_accepted mode ((State.compositeCheck_iff_accepted _).1 (hcheck.trans hc))⟩
  · exact ⟨_, composite_of_refused mode rfl hc, rfl, composite_of_refused mode hcheck hc⟩

theorem execSendr_framerBlind : FramerBlind execSendr := by
  intro s f
  by_cases hg : s.geomOK = true
  · have hsend : execSendr s = endTransport (transmit s s.serialBytes) := if_pos hg
    have hsend' : execSendr { s with fr := f } = endTransport (transmit { s with fr := f } s.serialBytes) := if_pos hg
    rw [hsend, hsend']
    exact endTransport_transmit_framerBlind s.serialBytes s f
  · exact ⟨s.fail .fbConfig, if_neg hg, rfl, if_neg hg⟩

/-- Settles O21, command by command. -/
theorem otherCommandsLeaveTheFramer : Obligations.OtherCommandsLeaveTheFramer := by
  intro s f
  refine ⟨fun i hpush hflush hsendf => ?_, ⟨_, rfl, rfl, rfl⟩, rfl, rfl, rfl, rfl⟩
  cases i with
  | push cb d => exact absurd rfl (hpush cb d)
  | flush cb noop => exact absurd rfl (hflush cb noop)
  | sendf cb => exact absurd rfl (hsendf cb)
  | compx => exact composite_framerBlind .exclusive s f
  | compw => exact composite_framerBlind .overwrite s f
  | compl => exact composite_framerBlind .overlay s f
  | revbits b => exact ⟨_, rfl, rfl, rfl⟩
  | quant4 b => exact ⟨_, rfl, rfl, rfl⟩
  | sendr => exact execSendr_framerBlind s f

end Sys2Proof.Machine

namespace Sys2Proof.Machine

/-! ### The bit utilities

REVBITS is three swaps (`swapBits`), QUANT4 a shift. Both commands come to the same update of the state, with the byte
they compute. -/

/-- The bits of `v` under the mask `lo` go up `n` places, and the others go down `n` places. -/
def swapBits (n : Nat) (lo v : Byte) : Byte := ((v &&& ~~~lo) >>> n) ||| ((v &&& lo) <<< n)

/-- REVBITS swaps nibbles, then 2-bit pairs, then single bits (R180). -/
theorem reverseBits_eq_swaps (b : Byte) : reverseBits b = swapBits 1 0x55 (swapBits 2 0x33 (swapBits 4 0x0F b)) := rfl

/-- Where the mask moved up is its own complement, a swap puts under the mask the bits from above and elsewhere the
bits from below. -/
theorem getLsbD_swapBits {n : Nat} {lo : Byte} (hlo : lo <<< n = ~~~lo) (v : Byte) {k : Nat} (hk : k < 8) :
    (swapBits n lo v).getLsbD k = if lo.getLsbD k then v.getLsbD (k + n) else v.getLsbD (k - n) := by
  have hdown : ((v &&& ~~~lo) >>> n).getLsbD k = (v.getLsbD (k + n) && lo.getLsbD k) := by
    have hmask : (~~~lo).getLsbD (k + n) = (decide (k + n < 8) && lo.getLsbD k) := by simp [← hlo]
    rw [BitVec.getLsbD_ushiftRight, BitVec.getLsbD_and, Nat.add_comm n k, hmask]
    by_cases h : k + n < 8
    · simp [h]
    · simp [BitVec.getLsbD_of_ge v (k + n) (by omega)]
  have hup : ((v &&& lo) <<< n).getLsbD k = (v.getLsbD (k - n) && !lo.getLsbD k) := by
    have hmask : (!lo.getLsbD k) = (!decide (k < n) && lo.getLsbD (k - n)) := by
      have h : (lo <<< n).getLsbD k = (~~~lo).getLsbD k := by rw [hlo]
      rw [BitVec.getLsbD_shiftLeft, BitVec.getLsbD_not, decide_eq_true hk, Bool.true_and, Bool.true_and] at h
      exact h.symm
    rw [BitVec.getLsbD_shiftLeft, BitVec.getLsbD_and, hmask, decide_eq_true hk, Bool.true_and, Bool.and_left_comm]
  rw [swapBits, BitVec.getLsbD_or, hdown, hup]
  cases lo.getLsbD k <;> simp

/-- Bit `k` comes from bit `7 - k`, place by place through the three swaps (R180). -/
theorem getLsbD_reverseBits (b : Byte) {k : Nat} (hk : k < 8) : (reverseBits b).getLsbD k = b.getLsbD (7 - k) := by
  rw [reverseBits_eq_swaps]
  interval_cases k <;> simp (disch := decide) only [getLsbD_swapBits] <;> rfl

theorem reverseBits_reverseBits (b : Byte) : reverseBits (reverseBits b) = b := by
  apply BitVec.eq_of_getLsbD_eq
  intro k hk
  rw [getLsbD_reverseBits _ hk, getLsbD_reverseBits _ (by omega), show 7 - (7 - k) = k by omega]

theorem toNat_quant4 (b : Byte) : (quant4 b).toNat = b.toNat / 16 := by
  rw [quant4, BitVec.toNat_ushiftRight, Nat.shiftRight_eq_div_pow]

theorem exec_revbits (b : Byte) (s : State) :
    exec (.revbits b) s = .next ((s.setResult (reverseBits b)).withStatus 1 0) := rfl

theorem exec_quant4 (b : Byte) (s : State) :
    exec (.quant4 b) s = .next ((s.setResult (quant4 b)).withStatus 1 0) := rfl

/-- A bit utility leaves a byte in RESULT and succeeds (R182). -/
theorem exec_utility {i : Instr} {s t : State} (hi : (∃ b, i = .revbits b) ∨ ∃ b, i = .quant4 b)
    (h : exec i s = .next t) : ∃ v, t = (s.setResult v).withStatus 1 0 := by
  rcases hi with ⟨b, rfl⟩ | ⟨b, rfl⟩
  · rw [exec_revbits] at h
    cases h
    exact ⟨_, rfl⟩
  · rw [exec_quant4] at h
    cases h
    exact ⟨_, rfl⟩

/-- Settles O10, with `reverseBits b` as the byte. -/
theorem revbitsReversesTheByte : Obligations.RevbitsReversesTheByte := by
  intro b s
  refine ⟨reverseBits b, exec_revbits b s, fun k hk => getLsbD_reverseBits b hk, ?_⟩
  rw [exec_revbits, reverseBits_reverseBits]
  rfl

/-- Settles O11, with `quant4 b` as the byte. -/
theorem quant4DividesBySixteen : Obligations.Quant4DividesBySixteen := by
  intro b s
  refine ⟨quant4 b, exec_quant4 b s, toNat_quant4 b, ?_⟩
  have := b.isLt
  rw [toNat_quant4]
  omega

/-- Settles O12: the frame is that of the one update both commands make, and RESULT reads as its byte field (O41). -/
theorem utilitiesWriteResultAndStatusOnly : Obligations.UtilitiesWriteResultAndStatusOnly := by
  intro i s t hi h
  obtain ⟨v, rfl⟩ := exec_utility hi h
  refine ⟨⟨v, 1, 0, rfl⟩, fun k hk => ?_, rfl, rfl, rfl, rfl, rfl, rfl, rfl, rfl, rfl, rfl, rfl⟩
  rw [(statusAndResultReadTheirFields _).2 k, if_neg (by omega)]

end Sys2Proof.Machine

namespace Sys2Proof.Machine

/-! ### The serialiser

A SENDF goes on from push to push while the frames it completes are answered with success; `State.framesSent` says what
such a run of pushes leaves. It ends with the bytes, or before the push that completes a frame answered otherwise. -/

section
variable {s : State} {cb : Bit} {ok : Bool}

/-- A transaction that is answered is logged with its answer (R206). -/
theorem transmit_answered (bytes : List Byte) (ha : s.answerAt 0 = if ok then .success else .failure) :
    transmit s bytes = .done ok (s.takeAnswer.record bytes ok) := by
  cases ok with
  | true => exact transmit_success bytes ha
  | false => exact transmit_failure bytes ha

/-- On an accepted geometry SENDR is one transaction of the framebuffer's bytes (R190). -/
theorem exec_sendr_accepted (hg : s.geometryAccepted) : exec .sendr s = endTransport (transmit s s.bytesToSend) := by
  rw [← s.serialBytes_eq]
  exact if_pos (s.geomOK_iff_accepted.2 hg)

/-- On an accepted geometry SENDF pushes the framebuffer's bytes (R191). -/
theorem exec_sendf_accepted (hg : s.geometryAccepted) :
    exec (.sendf cb) s = endTransport (pushAll cb s.bytesToSend s) := by
  rw [← s.serialBytes_eq]
  exact if_pos (s.geomOK_iff_accepted.2 hg)

theorem State.bytesToSend_length (s : State) : s.bytesToSend.length = s.framebufferBytes := by
  rw [State.bytesToSend, List.length_map, List.length_range]

/-- An accepted geometry has at least one byte to send (R131, R190). -/
theorem State.bytesToSend_ne_nil (hg : s.geometryAccepted) : s.bytesToSend ≠ [] :=
  s.serialBytes_eq ▸ State.serialBytes_ne_nil (s.geomOK_iff_accepted.2 hg)

end

/-- Settles O22, with the answer of the one transaction. -/
theorem sendrSendsTheFramebufferOnce : Obligations.SendrSendsTheFramebufferOnce := by
  intro s ok hg ha
  refine ⟨?_, State.bytesToSend_ne_nil hg⟩
  rw [exec_sendr_accepted hg, transmit_answered _ ha, endTransport_done]
  rfl

/-! ### Frames answered with success -/

/-- `t` is `s` after `n` transactions of nine bytes, each answered with success and logged, and changes to the framer
(R162, R191, R206). -/
structure State.framesSent (s t : State) (n : Nat) : Prop where
  frame : t = { s with fr := t.fr, log := t.log, answers := t.answers, asked := t.asked }
  log : ∃ sent : List Transaction, t.log = s.log ++ sent ∧ sent.length = n ∧
    ∀ e ∈ sent, e.ok = true ∧ e.bytes.length = 9
  asked : t.asked = s.asked + n
  answerAt : ∀ k, t.answerAt k = s.answerAt (k + n)

section
variable {s t u : State} {n m : Nat}

theorem State.framesSent.refl (s : State) : s.framesSent s 0 :=
  ⟨rfl, ⟨[], (List.append_nil _).symm, rfl, nofun⟩, rfl, fun _ => rfl⟩

theorem State.framesSent.trans (h1 : s.framesSent t n) (h2 : t.framesSent u m) : s.framesSent u (n + m) := by
  obtain ⟨hst, ⟨sent, hlog, hlen, hsent⟩, hasked, hans⟩ := h1
  obtain ⟨htu, ⟨more, hlog', hlen', hmore⟩, hasked', hans'⟩ := h2
  refine ⟨?_, ⟨sent ++ more, ?_, ?_, fun e he => ?_⟩, ?_, fun k => ?_⟩
  · rw [htu, hst]
  · rw [hlog', hlog, List.append_assoc]
  · rw [List.length_append, hlen, hlen']
  · exact (List.mem_append.1 he).elim (hsent e) (hmore e)
  · rw [hasked', hasked, Nat.add_assoc]
  · rw [hans', hans, Nat.add_right_comm, Nat.add_assoc]

theorem State.framesSent.phase (h : s.framesSent t n) : t.phase = s.phase := by rw [h.frame]

end

section
variable {s t u : State} {cb : Bit} {bytes : List Byte}

/-- A push whose frame, if it completes one, is answered with success moves the cursor on by one word, modulo the
eight words of a frame (R160). -/
theorem pushByte_succeeds (cb : Bit) (d : Byte) (ha : s.fr.cursor.toNat = 7 → s.answerAt 0 = .success) :
    ∃ t, pushByte cb d s = .done true t ∧ s.framesSent t ((s.fr.cursor.toNat + 1) / 8) ∧
      t.fr.cursor.toNat = (s.fr.cursor.toNat + 1) % 8 := by
  by_cases h7 : s.fr.cursor = 7
  · have hcur : s.fr.cursor.toNat = 7 := congrArg BitVec.toNat h7
    rw [hcur]
    exact ⟨_, pushByte_answered cb d true h7 (ha hcur),
      ⟨rfl, ⟨[_], rfl, rfl, by simp⟩, rfl, s.answerAt_takeAnswer⟩, rfl⟩
  · have hne : s.fr.cursor.toNat ≠ 7 := fun e => h7 (BitVec.eq_of_toNat_eq e)
    have hlt := s.fr.cursor.isLt
    rw [Nat.div_eq_of_lt (by omega), Nat.mod_eq_of_lt (by omega)]
    exact ⟨_, pushByte_below cb d h7, ⟨rfl, (State.framesSent.refl s).log, rfl, fun _ => rfl⟩,
      s.fr.push_cursor_toNat cb d (by omega)⟩

/-- After a push that succeeds, the loop of SENDF goes on with the bytes left (R191). -/
theorem pushAll_of_push_succeeds {b : Byte} (h : pushByte cb b s = .done true t) (rest : List Byte) :
    pushAll cb (b :: rest) s = pushAll cb rest t := by
  rw [pushAll, h]

/-- The loop of SENDF stops at a push that fails, whatever bytes are left (R193). -/
theorem pushAll_of_push_fails {b : Byte} (h : pushByte cb b s = .done false t) (rest : List Byte) :
    pushAll cb (b :: rest) s = .done false t := by
  rw [pushAll, h]

/-- Where the loop of SENDF succeeds, its first push has (R193). -/
theorem pushAll_cons_succeeds {b : Byte} (h : pushAll cb (b :: bytes) s = .done true t) :
    ∃ u, pushByte cb b s = .done true u ∧ pushAll cb bytes u = .done true t := by
  rw [pushAll] at h
  split at h
  · exact ⟨_, ‹_›, h⟩
  · cases h
  · cases h

/-- Pushes whose frames are all answered with success all succeed: every eight words from the frame's start are one
frame sent, and the words over stay in the framer (R160, R191). -/
theorem pushAll_succeeds (cb : Bit) (bytes : List Byte)
    (ha : ∀ k, k < (s.fr.cursor.toNat + bytes.length) / 8 → s.answerAt k = .success) :
    ∃ t, pushAll cb bytes s = .done true t ∧ s.framesSent t ((s.fr.cursor.toNat + bytes.length) / 8) ∧
      t.fr.cursor.toNat = (s.fr.cursor.toNat + bytes.length) % 8 := by
  induction bytes generalizing s with
  | nil =>
    have hlt := s.fr.cursor.isLt
    rw [List.length_nil, Nat.add_zero, Nat.div_eq_of_lt hlt, Nat.mod_eq_of_lt hlt]
    exact ⟨s, rfl, .refl s, rfl⟩
  | cons b rest ih =>
    rw [List.length_cons] at ha ⊢
    obtain ⟨u, hpush, hsu, hcur⟩ := pushByte_succeeds cb b fun h7 => ha 0 (by omega)
    obtain ⟨t, hrest, hut, hcur'⟩ := ih (s := u) fun k hk => (hsu.answerAt k).trans (ha _ (by omega))
    have hframes : (s.fr.cursor.toNat + 1) / 8 + (u.fr.cursor.toNat + rest.length) / 8 =
        (s.fr.cursor.toNat + (rest.length + 1)) / 8 := by omega
    exact ⟨t, (pushAll_of_push_succeeds hpush rest).trans hrest, hframes ▸ hsu.trans hut, by omega⟩

/-- The loop of SENDF goes on from where the pushes that succeed leave it (R191). -/
theorem pushAll_append (h : pushAll cb bytes s = .done true t) (more : List Byte) :
    pushAll cb (bytes ++ more) s = pushAll cb more t := by
  induction bytes generalizing s with
  | nil =>
    cases h
    rfl
  | cons b rest ih =>
    obtain ⟨u, hpush, hrest⟩ := pushAll_cons_succeeds h
    rw [List.cons_append, pushAll_of_push_succeeds hpush, ih hrest]

/-- Where frame `j` is the first that may not be answered with success, the pushes before the one that completes it
succeed, send the frames before it, and leave the cursor at 7 (R191, R193). -/
theorem pushAll_before_frame (cb : Bit) {j : Nat} (hj : j < (s.fr.cursor.toNat + bytes.length) / 8)
    (ha : ∀ k, k < j → s.answerAt k = .success) :
    ∃ before b after t, bytes = before ++ b :: after ∧
      bytes.take (8 * (j + 1) - s.fr.cursor.toNat) = before ++ [b] ∧
      pushAll cb before s = .done true t ∧ s.framesSent t j ∧ t.fr.cursor = 7 := by
  have hlt := s.fr.cursor.isLt
  obtain ⟨before, b, after, rfl, hlen⟩ : ∃ before b after, bytes = before ++ b :: after ∧
      s.fr.cursor.toNat + before.length = 8 * j + 7 := by
    obtain ⟨b, after, hdrop⟩ : ∃ b after, bytes.drop (8 * j + 7 - s.fr.cursor.toNat) = b :: after :=
      ⟨_, _, List.drop_eq_getElem_cons (by omega)⟩
    refine ⟨bytes.take (8 * j + 7 - s.fr.cursor.toNat), b, after, ?_, ?_⟩
    · rw [← hdrop, List.take_append_drop]
    · rw [List.length_take_of_le (by omega)]
      omega
  have hframes : (8 * j + 7) / 8 = j := by omega
  obtain ⟨t, hpush, hst, hcur⟩ := pushAll_succeeds (s := s) cb before (by rwa [hlen, hframes])
  rw [hlen] at hst hcur
  have h7 : t.fr.cursor = 7 := BitVec.eq_of_toNat_eq (hcur.trans (Nat.mul_add_mod 8 j 7))
  refine ⟨before, b, after, t, rfl, ?_, hpush, hframes ▸ hst, h7⟩
  rw [List.append_cons]
  exact List.take_left' (by rw [List.length_append, List.length_singleton]; omega)

/-! ### Pushes by SENDF and pushes by PUSH

Between two PUSH commands the one before has written STATUS, which no push reads. -/

/-- A push does the same whatever STATUS holds (R160). -/
theorem pushByte_withStatus {d : Byte} {done : Bool} (h : pushByte cb d s = .done done t) (ok : Bit) (err : Nibble) :
    pushByte cb d (s.withStatus ok err) = .done done (t.withStatus ok err) := by
  rcases pushByte_cases cb d s with ⟨hc, e⟩ | ⟨hc, answer, ha, e⟩ | ⟨-, -, e⟩ <;> rw [e] at h <;> cases h
  · exact pushByte_below (s := s.withStatus ok err) cb d hc
  · exact pushByte_answered (s := s.withStatus ok err) cb d done hc ha

/-- Pushes that all succeed are the PUSH commands of the same words, but for STATUS, which each PUSH writes (R191). -/
theorem runCommands_of_pushAll (hp : s.phase = .idle) (h : pushAll cb bytes s = .done true t) (ok : Bit)
    (err : Nibble) :
    runCommands (bytes.map fun b => .push cb b) (s.withStatus ok err) =
      .next (t.withStatus (if bytes.isEmpty then ok else 1) (if bytes.isEmpty then err else 0)) := by
  induction bytes generalizing s ok err with
  | nil =>
    cases h
    rfl
  | cons b rest ih =>
    obtain ⟨u, hpush, hrest⟩ := pushAll_cons_succeeds h
    have hfirst : exec (.push cb b) (s.withStatus ok err) = .next (u.withStatus 1 0) :=
      congrArg endTransport (pushByte_withStatus hpush ok err)
    have hkept := pushByte_leaves cb b s
    rw [hpush] at hkept
    have hidle : u.phase = .idle := hkept.2.trans hp
    rw [List.map_cons, runCommands, hfirst]
    refine (if_pos hidle).trans ?_
    simpa using ih hidle hrest 1 0

end

/-- Settles O23: every push succeeds, and the bytes are at least one, so that the last PUSH reports the success. -/
theorem sendfPushesEveryByte : Obligations.SendfPushesEveryByte := by
  intro s cb hg hp ha
  rw [← s.bytesToSend_length] at ha ⊢
  obtain ⟨t, hpush, hst, hcur⟩ := pushAll_succeeds cb s.bytesToSend ha
  have hrun := runCommands_of_pushAll hp hpush s.reg.lastOk s.reg.lastErr
  rw [List.isEmpty_eq_false_iff.2 (State.bytesToSend_ne_nil hg)] at hrun
  refine ⟨t.withStatus 1 0, ?_, hrun, hcur, hst.log, congrArg (·.withStatus 1 0) hst.frame⟩
  rw [exec_sendf_accepted hg, hpush, endTransport_done]
  rfl

/-- Settles O24: the pushes up to the one that completes frame `j` succeed, and that one fails. -/
theorem sendfStopsAtTheFirstFailure : Obligations.SendfStopsAtTheFirstFailure := by
  intro s cb j hg hj ha hfail
  rw [← s.bytesToSend_length] at hj
  obtain ⟨before, b, after, u, hbytes, htake, hpush, hsu, h7⟩ := pushAll_before_frame cb hj ha
  obtain ⟨sent, hlog, hlen, hsent⟩ := hsu.log
  have hlast : u.answerAt 0 = .failure := (hsu.answerAt 0).trans (by rwa [Nat.zero_add])
  refine ⟨u.frameSent (u.fr.full cb b) false, ?_, fun hp => ?_, rfl, rfl,
    ⟨sent, congrArg (· ++ [_]) hlog, hlen, hsent, congrArg (· + 1) hsu.asked⟩,
    congrArg (·.frameSent (u.fr.full cb b) false) hsu.frame⟩
  · rw [exec_sendf_accepted hg, hbytes, pushAll_append hpush,
      pushAll_of_push_fails (pushByte_answered cb b false h7 hlast), endTransport_done]
    rfl
  · have hrun := runCommands_of_pushAll hp hpush s.reg.lastOk s.reg.lastErr
    rw [htake, List.map_append]
    refine (runCommands_append hrun (hsu.phase.trans hp)).trans ((runCommands_singleton _ _).trans ?_)
    exact exec_push_answered (s := u.withStatus _ _) h7 hlast

end Sys2Proof.Machine

namespace Sys2Proof.Machine

/-! ### The idle engine -/

/-- Settles O9: with no host event left, nothing is asked of the engine. -/
theorem idleEngineKeepsItsState : Obligations.IdleEngineKeepsItsState := by
  intro s hhost
  rw [step, hostAction_nil hhost]

/-! ### Commands whose transport stays silent

R202's table is of commands that have ended. A command whose transaction is never answered has not: its phase is waiting
(R236), which shuts it out of every row. -/

/-- The state of a command that waits for the answer to the frame of `f` (R160, R236). -/
def State.frameWaiting (s : State) (f : Framer) : State :=
  { s with
    fr := f
    phase := .waiting f.frame.toList
    answers := s.answers.tail
    asked := s.asked + 1 }

theorem State.frameWaiting_phase_ne_idle (s : State) (f : Framer) : (s.frameWaiting f).phase ≠ .idle := nofun

/-- A transaction is answered, with success or with failure, or it is not (R206). -/
theorem State.answerAt_cases (s : State) (k : Nat) :
    (∃ ok : Bool, s.answerAt k = if ok then .success else .failure) ∨ s.answerAt k = .silence := by
  cases s.answerAt k with
  | success => exact .inl ⟨true, rfl⟩
  | failure => exact .inl ⟨false, rfl⟩
  | silence => exact .inr rfl

section
variable {s : State} {cb : Bit} {d noop : Byte}

/-- At cursor 7 a PUSH with no answer waits (R160, R236). -/
theorem exec_push_silent (h7 : s.fr.cursor = 7) (ha : s.answerAt 0 = .silence) :
    exec (.push cb d) s = .next (s.frameWaiting (s.fr.full cb d)) :=
  congrArg endTransport (pushByte_silent cb d h7 ha)

/-- The pushes of a FLUSH below cursor 7 move the framer on and nothing else; the loop goes on from there (R165). -/
theorem flushLoop_before_frame {n : Nat} (fuel : Nat) (first : Bool) (h0 : s.fr.cursor ≠ 0)
    (hn : s.fr.cursor.toNat + n ≤ 7) :
    ∃ ok, flushLoop (fuel + n) first cb noop s =
      flushLoop fuel ok cb noop { s with fr := s.fr.pushes (List.replicate n (cb, noop)) } := by
  induction n generalizing s first with
  | zero => exact ⟨first, rfl⟩
  | succ n ih =>
    have h7 : s.fr.cursor ≠ 7 := fun h => by simp [h] at hn
    have hnext := s.fr.push_cursor_toNat cb noop (by omega)
    have hne : (s.fr.push cb noop).cursor ≠ 0 := fun h => by simp [h] at hnext
    rw [← Nat.add_assoc, flushLoop_of_push h0 (pushByte_below cb noop h7)]
    exact ih (s := { s with fr := s.fr.push cb noop }) true hne
      (show (s.fr.push cb noop).cursor.toNat + n ≤ 7 by omega)

/-- From cursor 1..7 a FLUSH with no answer waits, its frame complete (R165, R236). -/
theorem exec_flush_silent (h0 : s.fr.cursor ≠ 0) (ha : s.answerAt 0 = .silence) :
    ∃ f, exec (.flush cb noop) s = .next (s.frameWaiting f) := by
  have hlt := s.fr.cursor.isLt
  obtain ⟨n, hn⟩ : ∃ n, s.fr.cursor.toNat + n = 7 := Nat.le.dest (by omega)
  obtain ⟨ok, hloop⟩ := flushLoop_before_frame (s.fr.cursor.toNat + 1) true h0 hn.le
  have hcur := s.fr.pushes_cursor_toNat (List.replicate n (cb, noop)) (by rw [List.length_replicate, hn])
  rw [List.length_replicate, hn] at hcur
  generalize s.fr.pushes (List.replicate n (cb, noop)) = f at hcur hloop
  have h7 : f.cursor = 7 := BitVec.eq_of_toNat_eq hcur
  have hne : f.cursor ≠ 0 := by rw [h7]; decide
  refine ⟨f.full cb noop, ?_⟩
  change endTransport (flushLoop 8 true cb noop s) = _
  rw [show 8 = s.fr.cursor.toNat + 1 + n by omega, hloop, flushLoop, if_neg hne,
    pushByte_silent (s := { s with fr := f }) cb noop h7 ha]
  rfl

/-- On an accepted geometry a SENDR with no answer waits (R190, R236). -/
theorem exec_sendr_silent (hg : s.geometryAccepted) (ha : s.answerAt 0 = .silence) :
    exec .sendr s = .next { s.takeAnswer with phase := .waiting s.bytesToSend } := by
  rw [exec_sendr_accepted hg, transmit_silence _ ha, endTransport_waiting]

/-- A SENDF whose frame `j` is the first not answered with success, and not answered at all, waits in that frame, the
frames before it sent (R191, R236). -/
theorem exec_sendf_silent {j : Nat} (hg : s.geometryAccepted)
    (hj : j < (s.fr.cursor.toNat + s.framebufferBytes) / 8) (ha : ∀ k, k < j → s.answerAt k = .success)
    (hsilent : s.answerAt j = .silence) :
    ∃ u f, s.framesSent u j ∧ exec (.sendf cb) s = .next (u.frameWaiting f) := by
  rw [← s.bytesToSend_length] at hj
  obtain ⟨before, b, after, u, hbytes, -, hpush, hsu, h7⟩ := pushAll_before_frame cb hj ha
  have hlast : u.answerAt 0 = .silence := (hsu.answerAt 0).trans (by rwa [Nat.zero_add])
  refine ⟨u, u.fr.full cb b, hsu, ?_⟩
  rw [exec_sendf_accepted hg, hbytes, pushAll_append hpush, pushAll, pushByte_silent cb b h7 hlast]
  rfl

end

/-! ### The rows of R202's table

What each command that has ended leaves where it did not succeed. -/

section
variable {s t : State} {i : Instr}

/-- A compositing command succeeds or reports the first check that fails, and changes nothing else then (R202). -/
theorem composite_ended (hi : i = .compx ∨ i = .compw ∨ i = .compl) (h : exec i s = .next t) :
    t.reg.lastErr = 0 ∨ t = s.withStatus 0 2 ∨ t = s.withStatus 0 3 ∨ t = s.withStatus 0 4 := by
  obtain ⟨hfbConfig, hdepth, hrange⟩ := compositeRefusalsInOrder i s hi
  by_cases hg : s.geometryAccepted
  · by_cases hd : s.depthAccepted
    · by_cases hr : s.rangeAccepted
      · obtain ⟨mode, hexec⟩ := exec_eq_composite hi
        rw [hexec, composite_of_accepted mode ⟨hg, hd, hr⟩] at h
        cases h
        exact .inl rfl
      · exact .inr (.inr (.inr (Host.Outcome.next.inj (h.symm.trans (hrange hg hd hr)))))
    · exact .inr (.inr (.inl (Host.Outcome.next.inj (h.symm.trans (hdepth hg hd)))))
  · exact .inr (.inl (Host.Outcome.next.inj (h.symm.trans (hfbConfig hg))))

/-- A command that sent a frame succeeded, or the answer was failure (R202). -/
theorem State.frameSent_ended (s : State) (f : Framer) (ok : Bool) :
    (s.frameSent f ok).reg.lastErr = 0 ∨ ∃ g, s.frameSent f ok = s.frameSent g false := by
  cases ok with
  | true => exact .inl rfl
  | false => exact .inr ⟨f, rfl⟩

/-- A PUSH that has ended succeeded, or completed a frame that was answered with failure (R160, R169). -/
theorem push_ended {cb : Bit} {d : Byte} (ht : t.phase = .idle) (h : exec (.push cb d) s = .next t) :
    t.reg.lastErr = 0 ∨ ∃ f, t = s.frameSent f false := by
  by_cases h7 : s.fr.cursor = 7
  · rcases s.answerAt_cases 0 with ⟨ok, ha⟩ | ha
    · rw [exec_push_answered h7 ha] at h
      cases h
      exact s.frameSent_ended _ ok
    · rw [exec_push_silent h7 ha] at h
      cases h
      exact absurd ht (s.frameWaiting_phase_ne_idle _)
  · rw [exec_push_below h7] at h
    cases h
    exact .inl rfl

/-- A FLUSH that has ended succeeded, or completed a frame that was answered with failure (R165 to R167). -/
theorem flush_ended {cb : Bit} {noop : Byte} (ht : t.phase = .idle) (h : exec (.flush cb noop) s = .next t) :
    t.reg.lastErr = 0 ∨ ∃ f, t = s.frameSent f false := by
  by_cases h0 : s.fr.cursor = 0
  · rw [flushAtCursorZeroDoesNothing s cb noop h0] at h
    cases h
    exact .inl rfl
  · rcases s.answerAt_cases 0 with ⟨ok, ha⟩ | ha
    · rw [exec_flush_answered h0 ha] at h
      cases h
      exact s.frameSent_ended _ ok
    · obtain ⟨f, hwaits⟩ := exec_flush_silent (cb := cb) (noop := noop) h0 ha
      rw [hwaits] at h
      cases h
      exact absurd ht (s.frameWaiting_phase_ne_idle f)

/-- A SENDR that has ended succeeded, refused the geometry, or logged its one transaction with failure (R190). -/
theorem sendr_ended (ht : t.phase = .idle) (h : exec .sendr s = .next t) :
    t.reg.lastErr = 0 ∨ t = s.withStatus 0 2 ∨
      (t.reg.lastErr = 5 ∧ t.log = s.log ++ [⟨s.bytesToSend, false⟩] ∧
        t = State.withStatus { s with log := t.log, answers := t.answers, asked := t.asked } 0 5) := by
  by_cases hg : s.geometryAccepted
  · rcases s.answerAt_cases 0 with ⟨ok, ha⟩ | ha
    · obtain ⟨hanswered, -⟩ := sendrSendsTheFramebufferOnce s ok hg ha
      rw [hanswered] at h
      cases h
      cases ok with
      | true => exact .inl rfl
      | false => exact .inr (.inr ⟨rfl, rfl, rfl⟩)
    · rw [exec_sendr_silent hg ha] at h
      cases h
      cases ht
  · obtain ⟨hrefused, -⟩ := sendsRefuseABadGeometry s 0 hg
    exact .inr (.inl (Host.Outcome.next.inj (h.symm.trans hrefused)))

/-- Of the first `n` transactions all are answered with success, or one is the first that is not. -/
theorem State.answers_succeed_or_first (s : State) (n : Nat) :
    (∀ k, k < n → s.answerAt k = .success) ∨
      ∃ j, j < n ∧ (∀ k, k < j → s.answerAt k = .success) ∧ s.answerAt j ≠ .success := by
  induction n with
  | zero => exact .inl nofun
  | succ n ih =>
    rcases ih with hall | ⟨j, hj, hbefore, hne⟩
    · by_cases hn : s.answerAt n = .success
      · exact .inl fun k hk => (Nat.lt_succ_iff_lt_or_eq.1 hk).elim (hall k) fun e => e ▸ hn
      · exact .inr ⟨n, Nat.lt_succ_self n, hall, hn⟩
    · exact .inr ⟨j, Nat.lt_succ_of_lt hj, hbefore, hne⟩

/-- A SENDF that has ended succeeded, refused the geometry, or stopped at the first frame answered with failure, its last
log entry (R191, R193). -/
theorem sendf_ended {cb : Bit} (hs : s.phase = .idle) (ht : t.phase = .idle) (h : exec (.sendf cb) s = .next t) :
    t.reg.lastErr = 0 ∨ t = s.withStatus 0 2 ∨
      (t.reg.lastErr = 5 ∧ t.fr.cursor = 0 ∧ t.fr.prev = 0 ∧
        (∃ sent, t.log = s.log ++ sent ++ [⟨t.fr.frame.toList, false⟩] ∧ ∀ e ∈ sent, e.ok = true) ∧
        t = State.withStatus { s with fr := t.fr, log := t.log, answers := t.answers, asked := t.asked } 0 5) := by
  by_cases hg : s.geometryAccepted
  · rcases s.answers_succeed_or_first ((s.fr.cursor.toNat + s.framebufferBytes) / 8) with hall | ⟨j, hj, hbefore, hne⟩
    · obtain ⟨u, hexec, -, -, -, hframe⟩ := sendfPushesEveryByte s cb hg hs hall
      rw [hexec] at h
      cases h
      exact .inl (congrArg (·.reg.lastErr) hframe)
    · cases ha : s.answerAt j with
      | success => exact absurd ha hne
      | failure =>
        obtain ⟨u, hexec, -, hcur, hprev, ⟨sent, hlog, -, hsent, -⟩, hframe⟩ :=
          sendfStopsAtTheFirstFailure s cb j hg hj hbefore ha
        rw [hexec] at h
        cases h
        exact .inr (.inr ⟨congrArg (·.reg.lastErr) hframe, hcur, hprev, ⟨sent, hlog, fun e he => (hsent e he).1⟩,
          hframe⟩)
      | silence =>
        obtain ⟨u, f, -, hwaits⟩ := exec_sendf_silent (cb := cb) hg hj hbefore ha
        rw [hwaits] at h
        cases h
        exact absurd ht (u.frameWaiting_phase_ne_idle f)
  · obtain ⟨-, hrefused⟩ := sendsRefuseABadGeometry s cb hg
    exact .inr (.inl (Host.Outcome.next.inj (h.symm.trans hrefused)))

end

/-- Settles O50, row by row of R202's table. -/
theorem errorCodesOfEachCommand : Obligations.ErrorCodesOfEachCommand := by
  intro s t hs ht
  refine ⟨fun w why hw h => ?_, fun i hi h => composite_ended hi h, fun i hi h => ?_, sendr_ended ht,
    fun cb h => sendf_ended hs ht h, fun i hi h => ?_⟩
  · have hillegal := runWord_illegal s (w := w) fun i hi => by cases hw.symm.trans hi
    exact Host.Outcome.next.inj (h.symm.trans hillegal)
  · have hended : t.reg.lastErr = 0 ∨ ∃ f, t = s.frameSent f false := by
      rcases hi with ⟨cb, d, rfl⟩ | ⟨cb, noop, rfl⟩
      · exact push_ended ht h
      · exact flush_ended ht h
    rcases hended with hok | ⟨f, rfl⟩
    · exact .inl hok
    · exact .inr ⟨rfl, rfl, rfl, rfl, rfl⟩
  · obtain ⟨v, rfl⟩ := exec_utility hi h
    rfl

end Sys2Proof.Machine

namespace Sys2Proof.Machine

/-! ### The reset input -/

section
variable {s : State} {rest : List HostEvent}

/-- The step that asserts reset, whether or not a command waits (R230, R236). -/
theorem step_resetAssert (h : s.host = .resetAssert :: rest) : step s = .next (s.accept rest).assertReset := by
  rw [step, hostAction_resetAssert h]

/-- The step that releases an asserted reset takes the values of R59 (R230). -/
theorem step_resetRelease (h : s.host = .resetRelease :: rest) (hr : s.inReset = true) :
    step s = .next (s.accept rest).reinitialise := by
  have hrelease : (s.accept rest).releaseReset = (s.accept rest).reinitialise := if_pos hr
  rw [step, hostAction_resetRelease h, hrelease]

/-- The step of a command cut by reset asserts reset and leaves no other trace (R231). -/
theorem step_cut {w : Word} (h : s.host = .commandCutByReset w :: rest) (hr : s.inReset = false)
    (hp : s.phase = .idle) : step s = .next (s.accept rest).assertReset := by
  rw [step, hostAction_cut h hr hp]

/-- While reset is asserted an access is refused, whatever it is (R230). -/
theorem step_access_inReset {a : Access} (h : s.host = .access a :: rest) (hr : s.inReset = true) :
    step s = .fault .busError := by
  rw [step, hostAction_access_inReset h hr]

/-- No command is issued while another waits (R83). -/
theorem hostAction_cut_blocked {w : Word} (h : s.host = .commandCutByReset w :: rest) (hr : s.inReset = false)
    (hp : s.phase ≠ .idle) : hostAction s = .still := by simp [hostAction, h, hr, hp]

/-- While a command waits for the transport only an edge of the reset input makes a step (R83, R236). -/
theorem step_blocked (hp : s.phase ≠ .idle) (hr : s.inReset = false)
    (hedge : ∀ rest, s.host ≠ .resetAssert :: rest ∧ s.host ≠ .resetRelease :: rest) : step s = .next s := by
  have hstill : hostAction s = .still := by
    cases hs : s.host with
    | nil => exact hostAction_nil hs
    | cons e rest =>
      cases e with
      | access a => exact hostAction_access_blocked hs hr hp
      | commandCutByReset w => exact hostAction_cut_blocked hs hr hp
      | resetAssert => exact absurd hs (hedge rest).1
      | resetRelease => exact absurd hs (hedge rest).2
  rw [step, hstill]

end

/-! ### The state a reset leaves -/

/-- After the release every register reads as it does at power-on (R59, R230). -/
theorem readReg_reinitialise (s : State) (n : RegName) : readReg s.reinitialise n = readReg State.reset n := by
  cases n <;> rfl

/-- At its reset values the framebuffer has no column, a geometry no command accepts (R59, R131). -/
theorem State.not_geometryAccepted_reinitialise (s : State) : ¬ s.reinitialise.geometryAccepted :=
  fun ⟨hwidth, _⟩ => Nat.not_succ_le_zero 0 hwidth

/-- Every command that needs a framebuffer fails with FB_CONFIG on a geometry that is refused, and changes STATUS only
(R131, R190, R191). -/
theorem exec_of_not_geometryAccepted {i : Instr} {s : State}
    (hi : i = .compx ∨ i = .compw ∨ i = .compl ∨ i = .sendr ∨ ∃ cb, i = .sendf cb) (hg : ¬ s.geometryAccepted) :
    exec i s = .next (s.withStatus 0 2) := by
  have hcomposite : i = .compx ∨ i = .compw ∨ i = .compl → exec i s = .next (s.withStatus 0 2) := fun hi =>
    (compositeRefusalsInOrder i s hi).1 hg
  rcases hi with h | h | h | rfl | ⟨cb, rfl⟩
  · exact hcomposite (.inl h)
  · exact hcomposite (.inr (.inl h))
  · exact hcomposite (.inr (.inr h))
  · exact (sendsRefuseABadGeometry s 0 hg).1
  · exact (sendsRefuseABadGeometry s cb hg).2

/-- Settles O45: the reset values are those of power-on (O47), under which no geometry is accepted. -/
theorem resetRefusesAccessesAndRestoresState : Obligations.ResetRefusesAccessesAndRestoresState := by
  refine ⟨fun s a rest hr hhost => step_access_inReset hhost hr, fun s rest hr hhost => ?_⟩
  refine ⟨_, step_resetRelease hhost hr, ?_⟩
  simp only [readReg_reinitialise]
  obtain ⟨hstatus, hresult, hframer, hlayout, hfbW, hfbH, hbase, hsrcW, hsrcH, hdepth, hxoff, hyoff, hfg, hbg,
    hcursor, hprev, hlog⟩ := resetStateIsTheSpecs
  exact ⟨hstatus, hresult, hframer, hlayout, hfbW, hfbH, hbase, hsrcW, hsrcH, hdepth, hxoff, hyoff, hfg, hbg,
    hcursor, hprev, hlog, rfl, rfl, rfl, rfl, s.fbMem.read_redraw s.nextDraw, rfl,
    fun i hi => exec_of_not_geometryAccepted hi (State.not_geometryAccepted_reinitialise _)⟩

/-- Settles O46: the cut asserts reset, and the release takes the reset values whatever the command had done. -/
theorem resetDuringACommandAbandonsIt : Obligations.ResetDuringACommandAbandonsIt := by
  intro s w rest hr hp hhost
  exact ⟨_, _, step_cut hhost hr hp, rfl, step_resetRelease rfl rfl, rfl, rfl, rfl, rfl, rfl, rfl, rfl, rfl⟩

/-! ### Silence -/

/-- Settles O44: each command waits at its first unanswered transaction, and a wait is left by reset alone. -/
theorem silenceBlocksUntilReset : Obligations.SilenceBlocksUntilReset := by
  refine ⟨fun s i hsilent hi => ?_, fun s cb j hg hj ha hsilent => ?_,
    fun s hp hr hedge => step_blocked hp hr hedge,
    fun s rest hhost => ⟨_, step_resetAssert hhost, rfl, rfl, rfl⟩⟩
  · rcases hi with ⟨⟨cb, d, rfl⟩, h7⟩ | ⟨⟨cb, noop, rfl⟩, h0⟩ | ⟨rfl, hg⟩ | ⟨⟨cb, rfl⟩, hg, hframe⟩
    · exact ⟨_, _, exec_push_silent h7 hsilent, rfl, rfl, rfl⟩
    · obtain ⟨f, hexec⟩ := exec_flush_silent h0 hsilent
      exact ⟨_, _, hexec, rfl, rfl, rfl⟩
    · exact ⟨_, _, exec_sendr_silent hg hsilent, rfl, rfl, rfl⟩
    · obtain ⟨u, f, hsu, hexec⟩ := exec_sendf_silent hg (Nat.div_pos hframe (by decide)) nofun hsilent
      obtain ⟨sent, hlog, hlen, -⟩ := hsu.log
      rw [List.length_eq_zero_iff.1 hlen, List.append_nil] at hlog
      exact ⟨_, _, hexec, rfl, congrArg (·.reg) hsu.frame, hlog⟩
  · obtain ⟨u, f, hsu, hexec⟩ := exec_sendf_silent (cb := cb) hg hj ha hsilent
    exact ⟨_, hexec, rfl, congrArg (·.reg) hsu.frame, hsu.log⟩

end Sys2Proof.Machine
